-- ==== Sys2Proof/Word.lean ====
section
/-! DEFINITION. The word types of the P24 (`00_scope.md` R5): names of widths only. -/

namespace Sys2Proof

/-- A memory word, the content of the latch I, a literal (`WORD`, `IW` of R5). -/
abbrev Word := BitVec 24

/-- The content of T, A, R, P or of a stack cell: bit 24 above a 24-bit datum (`REGW` of R5, decision D2). -/
abbrev Reg := BitVec 25

/-- A 24-bit word address, what the address bus carries (`ADDR` of R5). -/
abbrev Addr := BitVec 24

/-- A 6-bit instruction code (`CODEW` of R5). -/
abbrev Code := BitVec 6

/-- The 18-bit address field of a transfer word (`PAGEW` of R5). -/
abbrev PageOffset := BitVec 18

/-- The levels of INT4 ++ INT3 ++ INT2 ++ INT1 ++ INT0 (`NINT` of R5, `30_encoding.md` R102). -/
abbrev IntLines := BitVec 5

end Sys2Proof
end

