-- ==== Sys2Proof/Syntax.lean ====
section
/-! DEFINITION. The instructions: one constructor for each row of `spec/opcode_table.json`, and the four slots of a
program word. -/

namespace Sys2Proof

/-- The four 6-bit fields of a program word, executed in this order (`30_encoding.md` R91). -/
inductive Slot where
  | slot1
  | slot2
  | slot3
  | slot4
deriving DecidableEq, Repr

/-- An instruction: one 6-bit code of the map of `30_encoding.md` R95. Every operand but the 18-bit address of the
transfer instructions (R92) is implied by the code. -/
inductive Instr where
  -- class 0, transfer
  | jump (a : PageOffset)
  | ret
  | jz (a : PageOffset)
  | jnc (a : PageOffset)
  | call (a : PageOffset)
  | reserved05
  | reserved06
  | reserved07
  -- class 1, memory access
  | reserved08
  | ldp
  | ldi
  | ld
  | reserved0C
  | stp
  | reserved0E
  | st
  -- class 2, ALU
  | com
  | shl
  | shr
  | mul
  | xor
  | and
  | div
  | add
  -- class 3, register
  | pop
  | lda
  | dup
  | overS
  | push
  | sta
  | nop
  | drop
  /-- the 32 codes 0x20 to 0x3F, `low` being the code's low five bits -/
  | reservedUser (low : BitVec 5)
deriving DecidableEq, Repr

end Sys2Proof
end

