-- ==== Sys2Proof/WellFormed.lean ====
section
/-! DEFINITION. Which instructions a program of the base P24 may contain, and where. -/

namespace Sys2Proof

/-- One of the 26 implemented instructions, not one of the 38 reserved codes (`30_encoding.md` R95, R96). -/
def Instr.implemented : Instr → Bool
  | .reserved05 | .reserved06 | .reserved07 | .reserved08 | .reserved0C | .reserved0E | .reservedUser _ => false
  | .jump _ | .ret | .jz _ | .jnc _ | .call _ | .ldp | .ldi | .ld | .stp | .st | .com | .shl | .shr | .mul | .xor
  | .and | .div | .add | .pop | .lda | .dup | .overS | .push | .sta | .nop | .drop => true

/-- JUMP, JZ, JNC and CALL, the instructions that "must appear as Slot1 of a program word" and take its last 18 bits
(`30_encoding.md` R92). -/
def Instr.isTransfer : Instr → Bool
  | .jump _ | .jz _ | .jnc _ | .call _ => true
  | .ret | .reserved05 | .reserved06 | .reserved07 | .reserved08 | .ldp | .ldi | .ld | .reserved0C | .stp
  | .reserved0E | .st | .com | .shl | .shr | .mul | .xor | .and | .div | .add | .pop | .lda | .dup | .overS | .push
  | .sta | .nop | .drop | .reservedUser _ => false

/-- The instructions that send the sequencer to the fetch state from any slot (`10_state.md` R37). -/
def Instr.endsWord : Instr → Bool
  | .jump _ | .ret | .jz _ | .jnc _ | .call _ | .nop => true
  | .reserved05 | .reserved06 | .reserved07 | .reserved08 | .ldp | .ldi | .ld | .reserved0C | .stp
  | .reserved0E | .st | .com | .shl | .shr | .mul | .xor | .and | .div | .add | .pop | .lda | .dup | .overS | .push
  | .sta | .drop | .reservedUser _ => false

/-- The instruction may stand in this slot: the 22 slot instructions anywhere, the four transfer instructions in
Slot1 only (`30_encoding.md` R97), a reserved code nowhere (R96). -/
def Instr.wellFormedAt (k : Slot) (i : Instr) : Bool :=
  i.implemented && (!i.isTransfer || k == .slot1)

/-- The instruction may stand in some slot. -/
def Instr.wellFormed (i : Instr) : Bool := i.wellFormedAt .slot1

end Sys2Proof
end

