-- ==== Sys2Proof/Decode.lean ====
section
/-! DEFINITION. From the bits of a word to instructions (`30_encoding.md` R91, R92, R95), and back. All 64 codes are
rows of the opcode table, so every field of every 24-bit word decodes; a number of more than 24 bits is rejected. -/

namespace Sys2Proof

/-- Why bits are no instruction. -/
inductive DecodeReject where
  /-- the number does not fit a 24-bit program word (`30_encoding.md` R90) -/
  | widerThanAWord
deriving DecidableEq, Repr

/-- How far a slot's field stands above bit 0: slot k is `I[29-6k : 24-6k]` (R91). -/
def Slot.shift : Slot → Nat
  | .slot1 => 18
  | .slot2 => 12
  | .slot3 => 6
  | .slot4 => 0

/-- The 6-bit code in a slot of a word (R91). -/
def slotField (k : Slot) (w : Word) : Code := w.extractLsb' k.shift 6

/-- The transfer address of a word, I[17:0] (R92). -/
def transferField (w : Word) : PageOffset := w.extractLsb' 0 18

/-- The map of the 64 codes (R95), `a` being the word's address field. -/
def decodeCode (c : Code) (a : PageOffset) : Instr :=
  match c.toNat with
  | 0x00 => .jump a
  | 0x01 => .ret
  | 0x02 => .jz a
  | 0x03 => .jnc a
  | 0x04 => .call a
  | 0x05 => .reserved05
  | 0x06 => .reserved06
  | 0x07 => .reserved07
  | 0x08 => .reserved08
  | 0x09 => .ldp
  | 0x0A => .ldi
  | 0x0B => .ld
  | 0x0C => .reserved0C
  | 0x0D => .stp
  | 0x0E => .reserved0E
  | 0x0F => .st
  | 0x10 => .com
  | 0x11 => .shl
  | 0x12 => .shr
  | 0x13 => .mul
  | 0x14 => .xor
  | 0x15 => .and
  | 0x16 => .div
  | 0x17 => .add
  | 0x18 => .pop
  | 0x19 => .lda
  | 0x1A => .dup
  | 0x1B => .overS
  | 0x1C => .push
  | 0x1D => .sta
  | 0x1E => .nop
  | 0x1F => .drop
  | _ => .reservedUser (c.extractLsb' 0 5)

/-- The instruction a slot of a word holds (R91, R92). -/
def decodeSlot (k : Slot) (w : Word) : Instr := decodeCode (slotField k w) (transferField w)

/-- The instruction in a slot of a word given as a number. -/
def decodeNat (k : Slot) (w : Nat) : Except DecodeReject Instr :=
  if w < 2 ^ 24 then .ok (decodeSlot k (BitVec.ofNat 24 w)) else .error .widerThanAWord

/-- The instruction of an opcode-table word: every row's pattern has its code in Slot1, whole in the first `nbits` = 24
bits. -/
def decodeTableWord (nbits w : Nat) : Option Instr :=
  if w < 2 ^ nbits then (decodeNat .slot1 w).toOption else none

/-! ### The instructions of a word (R99) -/

/-- Of instructions in slot order, those that are reached: up to and with the first that ends the word. -/
def untilWordEnd : List Instr → List Instr
  | [] => []
  | i :: is => if i.endsWord then [i] else i :: untilWordEnd is

/-- The instructions of a word that execution reaches, in order (`30_encoding.md` R99). -/
def reached (w : Word) : List Instr :=
  untilWordEnd [decodeSlot .slot1 w, decodeSlot .slot2 w, decodeSlot .slot3 w, decodeSlot .slot4 w]

/-- How many literal words follow the word: one for each LDI that is reached (R99). -/
def literalCount (w : Word) : Nat := (reached w).count .ldi

/-! ### Encoding -/

/-- The 6-bit code of an instruction (R95). -/
def Instr.code : Instr → Code
  | .jump _ => 0x00
  | .ret => 0x01
  | .jz _ => 0x02
  | .jnc _ => 0x03
  | .call _ => 0x04
  | .reserved05 => 0x05
  | .reserved06 => 0x06
  | .reserved07 => 0x07
  | .reserved08 => 0x08
  | .ldp => 0x09
  | .ldi => 0x0A
  | .ld => 0x0B
  | .reserved0C => 0x0C
  | .stp => 0x0D
  | .reserved0E => 0x0E
  | .st => 0x0F
  | .com => 0x10
  | .shl => 0x11
  | .shr => 0x12
  | .mul => 0x13
  | .xor => 0x14
  | .and => 0x15
  | .div => 0x16
  | .add => 0x17
  | .pop => 0x18
  | .lda => 0x19
  | .dup => 0x1A
  | .overS => 0x1B
  | .push => 0x1C
  | .sta => 0x1D
  | .nop => 0x1E
  | .drop => 0x1F
  | .reservedUser low => 1#1 ++ low

/-- The address field of a transfer instruction, if it has one (R92). -/
def Instr.address : Instr → Option PageOffset
  | .jump a | .jz a | .jnc a | .call a => some a
  | .ret | .reserved05 | .reserved06 | .reserved07 | .reserved08 | .ldp | .ldi | .ld | .reserved0C | .stp
  | .reserved0E | .st | .com | .shl | .shr | .mul | .xor | .and | .div | .add | .pop | .lda | .dup | .overS | .push
  | .sta | .nop | .drop | .reservedUser _ => none

/-- A word with the code of one slot replaced. -/
def putCode (k : Slot) (c : Code) (rest : Word) : Word :=
  (rest &&& ~~~((0x3F : Word) <<< k.shift)) ||| (c.setWidth 24 <<< k.shift)

/-- A word that holds the instruction in the slot: a transfer instruction takes the address field too (R92), any other
leaves the three other slots of `rest` as they are (R91). -/
def encodeAt (k : Slot) (i : Instr) (rest : Word) : Word :=
  match i.address with
  | some a => putCode k i.code (rest.extractLsb' 18 6 ++ a)
  | none => putCode k i.code rest

/-- Four NOPs, the padding of unused slots (`30_encoding.md` R108). -/
def padding : Word := 0x79E79E

/-- The word with the instruction in Slot1 and the unused slots padded. -/
def encode (i : Instr) : Word := encodeAt .slot1 i padding

/-- The slot word of four codes, Slot1 first (R91). -/
def slotWord (i1 i2 i3 i4 : Instr) : Word := i1.code ++ i2.code ++ i3.code ++ i4.code

end Sys2Proof
end

