-- ==== Sys2Proof/Config.lean ====
section
/-! DEFINITION. What a platform fixes (the three OPEN parameters of `00_scope.md` R5) and the free values,
which no text of the spec fixes: constants without a body, so that no proof can rest on one of their values. -/

namespace Sys2Proof

/-- What the platform puts behind an address (`20_memory.md` R73). Where writes have no effect of the spec's own
(ROM, nothing at all), the platform says whether they are ignored or stop the model (U18). -/
inductive MemKind where
  /-- reads return the last write -/
  | ram
  /-- reads return a fixed word -/
  | rom (ignoreWrites : Bool)
  /-- reads are draws, writes are output events (R66) -/
  | device
  /-- nothing there: a read stops the model -/
  | unpopulated (ignoreWrites : Bool)
deriving DecidableEq, Repr

/-- One range of word addresses of the memory map: `size` words from `base` on. -/
structure Region where
  base : Nat
  size : Nat
  kind : MemKind
deriving DecidableEq, Repr

/-- Parameter `A24_MULDIV`: what MUL and DIV leave in A[24] (`10_state.md` R27, decision D14). -/
inductive A24MulDiv where
  /-- A[24] unchanged (the spec's default) -/
  | keep
  /-- A[24] cleared -/
  | zero
  /-- DIV moves old A[23] into A[24], MUL moves 0 -/
  | shift
deriving DecidableEq, Repr

/-- The OPEN parameters of R5. They are fixed for a machine; no step changes them. -/
structure Platform where
  /-- `MemMap` (R73): the first region that holds an address says what is there; an address in no region is RAM
  (DESIGN CHOICE, log 6). -/
  memMap : List Region
  /-- `A24_MULDIV` (D14) -/
  a24MulDiv : A24MulDiv
  /-- `INT_ACTIVE_LEVEL` (D19): an INT line is active at logic 1 (true) or at logic 0 (false) -/
  intActiveHigh : Bool
deriving DecidableEq, Repr

/-- The spec's defaults of `A24_MULDIV` and `INT_ACTIVE_LEVEL` (R5), and RAM everywhere, as the spec's test
vectors assume (R73). DESIGN CHOICE, log 4. -/
def Platform.default : Platform :=
  { memMap := [], a24MulDiv := .keep, intActiveHigh := true }

namespace Config

/-- The value that enters the deepest cell of a stack on a pop, `draw_25()` of `10_state.md` R24 and R26 (D6).
The argument counts draws. -/
opaque stackFill : Nat → Reg

/-- What a device answers to a read (`20_memory.md` R66). The argument counts draws. -/
opaque deviceWord : Nat → Word

/-- The level of UART_OUT after reset, `draw_1()` of `10_state.md` R45 (D24). The argument counts draws. -/
opaque uartOutDraw : Nat → Bool

/-- The level of the pin UART_IN in a cycle, `sample_UART_IN()` of `00_scope.md` R8. The argument counts cycles. -/
opaque uartIn : Nat → Bool

/-- The electrical levels of the pins INT0 to INT4 in a cycle (R8). The argument counts cycles. -/
opaque intPins : Nat → IntLines

end Config

end Sys2Proof
end

