-- ==== Sys2Proof/Machine/State.lean ====
section
/-! DEFINITION. The state of the P24 (`10_state.md`), as plain data, its reset values, and the named reasons a step can
stop. -/

namespace Sys2Proof.Machine

/-- Memory: (word address, word) pairs in canonical form (`Memory.wf`), only the words that differ from what an
unlisted address reads as. The unit is the 24-bit word, for the machine has no bytes (`20_memory.md` R63; log 8). -/
abbrev Memory := List (Nat × Word)

/-- The machine instruction counter (`10_state.md` R30): value 0, the fetch state, or value k, which executes Slot k. -/
inductive Sequencer where
  | fetch
  | execute (k : Slot)
deriving DecidableEq, Repr

/-- The levels the environment puts on the input pins in one clock cycle (`10_state.md` R32, R240). -/
structure Pins where
  /-- electrical levels of INT4 ++ INT3 ++ INT2 ++ INT1 ++ INT0 -/
  int : IntLines
  /-- level of UART_IN -/
  uartIn : Bool
  /-- the internal reset signal `clr`, active high -/
  clr : Bool
deriving DecidableEq, Repr

/-- What the environment sees the machine put out: the events a model of the spec owes it. -/
inductive Output where
  /-- a bit latched onto UART_OUT by an executed SHR (`60_exceptions.md` R228) -/
  | uart (b : Bool)
  /-- a word written to a device address (`20_memory.md` R66) -/
  | busWrite (a : Addr) (w : Word)
deriving DecidableEq, Repr

/-- Everything the spec gives the machine (INVENTORY.md, heading State), then the parameters and the model's own
fields. -/
structure State where
  /-- T: accumulator, top item of the data stack; bit 24 is the carry (R21) -/
  t : Reg
  /-- DS[0] to DS[15], the cells of the data stack below T; DS[0] is S (R23) -/
  ds : Vector Reg 16
  /-- R: top of the return stack (R25) -/
  r : Reg
  /-- RS[0] to RS[31], the cells of the return stack below R (R25) -/
  rs : Vector Reg 32
  /-- A: address register (R27) -/
  a : Reg
  /-- P: program counter (R28) -/
  p : Reg
  /-- I: instruction latch (R29) -/
  i : Word
  /-- the slot counter (R30) -/
  slot : Sequencer
  /-- IEN: an interrupt may be taken at the next fetch state (R31) -/
  ien : Bool
  /-- the output latch UART_OUT (R32) -/
  uartOut : Bool
  /-- Mem (R36) -/
  mem : Memory
  /-- the platform's parameters, which no step changes (`00_scope.md` R5; log 4) -/
  cfg : Platform
  /-- the pin levels of this cycle and the cycles after it; where the list ends the levels are free (log 2) -/
  inputs : List Pins
  /-- how many cycles have passed (log 28) -/
  cycle : Nat
  /-- how many free values have been drawn (log 28) -/
  draws : Nat
  /-- the output events so far, newest first (log 28) -/
  outputs : List Output
deriving DecidableEq, Repr

/-- Where the spec gives the hardware no defined behaviour (`ModelFault` of `00_scope.md` R8, decision D32), or the
platform has nothing that could answer. The machine has no trap; the model stops. -/
inductive Fault where
  /-- Raised by the meanings of the reserved rows of the opcode table (`30_encoding.md` R96, D18). Safe. -/
  | reservedCode (c : Code)
  /-- Raised by JUMP, JZ, JNC and CALL in any slot but Slot1 (`30_encoding.md` R97, D17). Safe. -/
  | transferOutsideSlot1
  /-- Raised by a fetch, LDI, LD, LDP, ST or STP at an address where the platform has nothing (`20_memory.md` R73). Safe. -/
  | unpopulated (a : Addr)
  /-- Raised by ST and STP at an address of a ROM whose platform does not say that writes are ignored (R73, U18). Safe. -/
  | romWrite (a : Addr)
deriving DecidableEq, Repr

/-- Why the model gives an instruction no meaning. -/
inductive Refusal where
  /-- Raised by an arm of exec that has no meaning yet; no arm is left so. Safe. -/
  | notModelled (mnemonic : String)
deriving DecidableEq, Repr

/-- The outcome of an instruction or a step. -/
abbrev Result := Host.Outcome State Fault Refusal

/-- The machine right after reset (`10_state.md` R45): all registers and both stacks 0, the fetch state, IEN 1 (D21),
UART_OUT unspecified (D24), memory as the platform has it (log 5), the parameters at their defaults (log 4). -/
def State.reset : State :=
  { t := 0
    ds := Vector.replicate 16 0
    r := 0
    rs := Vector.replicate 32 0
    a := 0
    p := 0
    i := 0
    slot := .fetch
    ien := true
    uartOut := Config.uartOutDraw 0
    mem := []
    cfg := Platform.default
    inputs := []
    cycle := 0
    draws := 1
    outputs := [] }

end Sys2Proof.Machine
end

