-- ==== Sys2Proof/Machine/Flags.lean ====
section
/-! DEFINITION. The one flag, the carry T[24] (`10_state.md` R33), the parts of a 25-bit register, and the
25-bit results of the ALU (`42_alu.md`). -/

namespace Sys2Proof.Machine

/-- Bit 24 of a register: the carry, if the register is T (`10_state.md` R21). -/
def carry (x : Reg) : Bool := x.getLsbD 24

/-- Bits 23:0 of a register: the datum the ALU works on (R21). -/
def datum (x : Reg) : Word := x.extractLsb' 0 24

/-- Bit 23, the sign of the datum (R21). -/
def sign (x : Reg) : Bool := x.getLsbD 23

/-- `c ++ d`: a register with carry `c` and datum `d`. -/
def withCarry (c : Bool) (d : Word) : Reg := BitVec.cons c d

/-- `zext_25` of a memory word: the carry position is 0 (`30_encoding.md` R101). -/
def zext25 (w : Word) : Reg := withCarry false w

/-- The output of the 24-bit adder on the data of two registers; bit 24 is the carry out and the old carries take no
part (`42_alu.md` R168, D8). -/
def sum25 (s t : Reg) : Reg := (datum s).setWidth 25 + (datum t).setWidth 25

/-- COM (R160, D9): `T[24] ++ ~T[23:0]`. -/
def comResult (t : Reg) : Reg := withCarry (carry t) (~~~datum t)

/-- XOR (R164, D9): the carry of T stays, that of S is discarded. -/
def xorResult (s t : Reg) : Reg := withCarry (carry t) (datum s ^^^ datum t)

/-- AND (R165, D9). -/
def andResult (s t : Reg) : Reg := withCarry (carry t) (datum s &&& datum t)

/-- SHL (R161): `T[23:0] ++ 0`, so old bit 23 becomes the carry. -/
def shlResult (t : Reg) : Reg := BitVec.concat (datum t) false

/-- SHR (R162): the pin enters the carry, the sign is kept, `pin ++ T[23] ++ T[23:1]`. -/
def shrResult (pin : Bool) (t : Reg) : Reg := BitVec.cons pin (BitVec.cons (sign t) (t.extractLsb' 1 23))

/-- The value MUL shifts right (R163): the sum if A[0] is set, else the datum of T. -/
def mulSum (a s t : Reg) : Reg := if a.getLsbD 0 then sum25 s t else zext25 (datum t)

/-- What MUL leaves in A[24] (`10_state.md` R27, D14; log 17). -/
def mulA24 (mode : A24MulDiv) (a : Reg) : Bool :=
  match mode with
  | .keep => carry a
  | .zero => false
  | .shift => false

/-- T after MUL (R163, D12): `T[24] ++ sum[24:1]`. -/
def mulT (a s t : Reg) : Reg := withCarry (carry t) ((mulSum a s t).extractLsb' 1 24)

/-- A after MUL (R163): `a24 ++ sum[0] ++ A[23:1]`. -/
def mulA (mode : A24MulDiv) (a s t : Reg) : Reg :=
  withCarry (mulA24 mode a) (BitVec.cons ((mulSum a s t).getLsbD 0) (a.extractLsb' 1 23))

/-- The value DIV shifts left (R166): the sum if the addition carries, else the datum of T. -/
def divSelect (s t : Reg) : Word := if carry (sum25 s t) then datum (sum25 s t) else datum t

/-- What DIV leaves in A[24] (`10_state.md` R27, D14; log 17). -/
def divA24 (mode : A24MulDiv) (a : Reg) : Bool :=
  match mode with
  | .keep => carry a
  | .zero => false
  | .shift => sign a

/-- T after DIV (R166, D13): `X ++ A[23]`, the bit shifted out of X becomes the carry. -/
def divT (a s t : Reg) : Reg := BitVec.concat (divSelect s t) (sign a)

/-- A after DIV (R166): `a24 ++ A[22:0] ++ c`, c the carry of the addition. -/
def divA (mode : A24MulDiv) (a s t : Reg) : Reg :=
  withCarry (divA24 mode a) (BitVec.concat (a.extractLsb' 0 23) (carry (sum25 s t)))

end Sys2Proof.Machine
end

