-- ==== Sys2Proof/Machine/Operands.lean ====
section
/-! DEFINITION. Where operands come from: bus addresses (`20_memory.md` R62), transfer targets (`30_encoding.md` R100),
the pins (`00_scope.md` R8), and the order of the slots (`10_state.md` R37). -/

namespace Sys2Proof.Machine

/-- The address a register puts on the bus: its low 24 bits (R62, D15). -/
def busAddr (x : Reg) : Addr := datum x

/-- `(x + 1) mod 2^25`, the increments of A and P (`10_state.md` R27, R28, D15). -/
def increment (x : Reg) : Reg := x + 1

/-- `P[24:18] ++ I[17:0]`, P being already incremented (R100, D16). -/
def transferTarget (p : Reg) (a : PageOffset) : Reg := p.extractLsb' 18 7 ++ a

/-- `zext_25` of the interrupt vector (`30_encoding.md` R102). -/
def vectorTarget (v : IntLines) : Reg := v.setWidth 25

/-- The slot after a slot: k + 1, none after Slot4. -/
def nextSlot : Slot → Option Slot
  | .slot1 => some .slot2
  | .slot2 => some .slot3
  | .slot3 => some .slot4
  | .slot4 => none

/-- The sequencer state `slot + 1, or 0 after Slot4` (R37). -/
def Sequencer.next : Sequencer → Sequencer
  | .fetch => .execute .slot1
  | .execute k => match nextSlot k with
    | some k' => .execute k'
    | none => .fetch

/-- S, the item under T (`10_state.md` R23). -/
def State.s (s : State) : Reg := s.ds[0]

/-- The electrical levels of the INT pins in this cycle. -/
def intLevels (s : State) : IntLines :=
  match s.inputs with
  | pins :: _ => pins.int
  | [] => Config.intPins s.cycle

/-- `sample_INT()`: the lines at their active level in this cycle (`60_exceptions.md` R212, D19). -/
def sampleInt (s : State) : IntLines := if s.cfg.intActiveHigh then intLevels s else ~~~intLevels s

/-- `sample_UART_IN()` (`00_scope.md` R8). -/
def sampleUartIn (s : State) : Bool :=
  match s.inputs with
  | pins :: _ => pins.uartIn
  | [] => Config.uartIn s.cycle

/-- `clr` in this cycle (`70_reset_and_hazards.md` R240). Beyond the listed inputs it is inactive (DESIGN CHOICE, log 3). -/
def sampleClr (s : State) : Bool :=
  match s.inputs with
  | pins :: _ => pins.clr
  | [] => false

/-- What the platform has at a word address: the kind of the first region that holds it, RAM in none (`20_memory.md`
R73; log 6). -/
def kindIn : List Region → Nat → MemKind
  | [], _ => .ram
  | g :: gs, a => if g.base ≤ a ∧ a < g.base + g.size then g.kind else kindIn gs a

/-- What stands at a bus address in this machine. -/
def kindAt (s : State) (a : Addr) : MemKind := kindIn s.cfg.memMap a.toNat

end Sys2Proof.Machine
end

