-- ==== Sys2Proof/Machine/Ops.lean ====
section
/-! DEFINITION. The named operations the meanings share: the cells of the stacks, memory and the bus, the fetch cycle,
taking an interrupt and returning from one, reset. -/

namespace Sys2Proof.Machine

/-! ### Stack cells (`10_state.md` R24, R26) -/

/-- A push on storage cells: the deepest cell is lost, the others move down (D5). -/
def pushCell {n : Nat} (c : Vector Reg (n + 1)) (v : Reg) : Vector Reg (n + 1) :=
  ⟨⟨v :: c.toList.dropLast⟩, by simp⟩

/-- A pop of storage cells: they move up and `fill` enters the deepest (D6). -/
def popCell {n : Nat} (c : Vector Reg (n + 1)) (fill : Reg) : Vector Reg (n + 1) :=
  ⟨⟨c.toList.tail ++ [fill]⟩, by simp⟩

/-- `dpush(v)` (R24). -/
def dpush (v : Reg) (s : State) : State := { s with ds := pushCell (n := 15) s.ds v }

/-- What `dpop()` does to the cells; its result is the old S (R24). The value that enters DS[15] is free (log 9). -/
def ddrop (s : State) : State :=
  { s with ds := popCell (n := 15) s.ds (Config.stackFill s.draws), draws := s.draws + 1 }

/-- `T <- dpop()`: all 25 bits of S, its carry with it (R22, R24). -/
def popT (s : State) : State := { ddrop s with t := s.s }

/-- `rpush(v)` (R26). -/
def rpush (v : Reg) (s : State) : State := { s with r := v, rs := pushCell (n := 31) s.rs s.r }

/-- What `rpop()` does to R and the cells; its result is the old R (R26). The value that enters RS[31] is free (log 9). -/
def rdrop (s : State) : State :=
  { s with r := s.rs[0], rs := popCell (n := 31) s.rs (Config.stackFill s.draws), draws := s.draws + 1 }

/-! ### Memory (`20_memory.md` R60, R73) -/

/-- What an address that `mem` does not list reads as (DESIGN CHOICE, log 5). -/
def Memory.fill : Word := 0

/-- The word at an address. -/
def Memory.read : Memory → Nat → Word
  | [], _ => Memory.fill
  | (b, w) :: m, a => if a = b then w else Memory.read m a

/-- The memory without an entry for the address. -/
def Memory.erase (m : Memory) (a : Nat) : Memory := m.filter fun c => c.1 != a

/-- An entry put before the first higher address. -/
def Memory.insert (a : Nat) (v : Word) : Memory → Memory
  | [] => [(a, v)]
  | (b, w) :: m => if a < b then (a, v) :: (b, w) :: m else (b, w) :: Memory.insert a v m

/-- The memory after a word is stored; a word equal to the fill is not listed. -/
def Memory.write (m : Memory) (a : Nat) (v : Word) : Memory :=
  if v = Memory.fill then m.erase a else (m.erase a).insert a v

/-- The canonical form: addresses strictly rise and lie in the address space, and no entry equals the fill. -/
abbrev Memory.wf (m : Memory) : Prop :=
  m.Pairwise (fun c d => c.1 < d.1) ∧ ∀ c ∈ m, c.1 < 2 ^ 24 ∧ c.2 ≠ Memory.fill

/-! ### The bus (R61, R65, R66, R73) -/

/-- `MemRead(addr, 24)`: RAM and ROM answer their word, a device a free word (R66), nothing stops the model (R73). -/
def busRead (a : Addr) (s : State) : Except Fault (Word × State) :=
  match kindAt s a with
  | .ram => .ok (Memory.read s.mem a.toNat, s)
  | .rom _ => .ok (Memory.read s.mem a.toNat, s)
  | .device => .ok (Config.deviceWord s.draws, { s with draws := s.draws + 1 })
  | .unpopulated _ => .error (.unpopulated a)

/-- `MemWrite(addr, 24, w)`: RAM holds the word, a device is sent it (R66), ROM and nothing ignore it or stop the model
as the platform says (R73, U18). -/
def busWrite (a : Addr) (w : Word) (s : State) : Except Fault State :=
  match kindAt s a with
  | .ram => .ok { s with mem := Memory.write s.mem a.toNat w }
  | .rom ignoreWrites => if ignoreWrites then .ok s else .error (.romWrite a)
  | .device => .ok { s with outputs := .busWrite a w :: s.outputs }
  | .unpopulated ignoreWrites => if ignoreWrites then .ok s else .error (.unpopulated a)

/-! ### Ends of instructions (`10_state.md` R37) -/

/-- `next_slot <- slot + 1, or 0 after Slot4`. -/
def advance (s : State) : State := { s with slot := s.slot.next }

/-- `next_slot <- 0`: the next cycle fetches. -/
def endWord (s : State) : State := { s with slot := .fetch }

/-- An instruction that may have stopped at the bus, else goes on to the next slot. -/
def finish (e : Except Fault State) : Result :=
  match e with
  | .ok s => .next (advance s)
  | .error f => .fault f

/-- A load: the old T is pushed and T becomes the word with carry 0 (`41_memory_access.md` R145, `20_memory.md` R65). -/
def load (a : Addr) (s : State) : Except Fault State :=
  match busRead a s with
  | .ok (w, s1) => .ok { dpush s.t s1 with t := zext25 w }
  | .error f => .error f

/-- A store: T[23:0] goes to memory, then the data stack is popped into T (R145). -/
def store (a : Addr) (s : State) : Except Fault State :=
  match busWrite a (datum s.t) s with
  | .ok s1 => .ok (popT s1)
  | .error f => .error f

/-- The post-increment of A (R145). -/
def incA (s : State) : State := { s with a := increment s.a }

/-- The post-increment of P (R145). -/
def incP (s : State) : State := { s with p := increment s.p }

/-- `P <- P[24:18] ++ I[17:0]` (`30_encoding.md` R100). -/
def jumpTo (a : PageOffset) (s : State) : State := { s with p := transferTarget s.p a }

/-- JUMP, JZ, JNC and CALL have an effect in Slot1 only, and then the next cycle fetches (`40_transfer.md` R126,
`30_encoding.md` R97). -/
def inSlot1 (effect : State → State) (s : State) : Result :=
  if s.slot = .execute .slot1 then .next (endWord (effect s)) else .fault .transferOutsideSlot1

/-- A reserved code that is reached (`30_encoding.md` R96). -/
def reservedFault (c : Code) : Result := .fault (.reservedCode c)

/-- Bit `b` is latched onto UART_OUT and seen outside (`60_exceptions.md` R228). -/
def sendUart (b : Bool) (s : State) : State := { s with uartOut := b, outputs := .uart b :: s.outputs }

/-! ### Interrupts (`60_exceptions.md`) -/

/-- An interrupt is taken in this cycle if the machine is in the fetch state (R212, R213). -/
def interruptDue (s : State) : Bool := s.ien && sampleInt s != 0

/-- Interrupt entry (R214): P, the address of the word not yet fetched, is pushed on the return stack, P becomes the
vector, servicing is disabled, and the next cycle fetches. -/
def takeInterrupt (v : IntLines) (s : State) : State :=
  { rpush s.p s with p := vectorTarget v, ien := false, slot := .fetch }

/-- RET, which is also the return from an interrupt (`40_transfer.md` R121, `60_exceptions.md` R217): P is popped off
the return stack and servicing is enabled. -/
def returnFrom (s : State) : State := endWord { rdrop s with p := s.r, ien := true }

/-! ### The cycles that execute no slot -/

/-- The fetch cycle (`10_state.md` R36). -/
def fetchCycle (s : State) : Result :=
  match busRead (busAddr s.p) s with
  | .ok (w, s1) => .next { s1 with i := w, p := increment s.p, slot := .execute .slot1 }
  | .error f => .fault f

/-- The cycle in the fetch state (R37): interrupt entry replaces the fetch (R214, D22). -/
def slot0Cycle (s : State) : Result :=
  if interruptDue s then .next (takeInterrupt (sampleInt s) s) else fetchCycle s

/-- The reset event (`70_reset_and_hazards.md` R240, `10_state.md` R45): every register, both stacks, I and the slot
counter 0, IEN 1, UART_OUT unspecified, memory and what is outside the core untouched (D31; log 29). -/
def clear (s : State) : State :=
  { s with
    t := 0, ds := Vector.replicate 16 0, r := 0, rs := Vector.replicate 32 0, a := 0, p := 0, i := 0,
    slot := .fetch, ien := true, uartOut := Config.uartOutDraw s.draws, draws := s.draws + 1 }

/-- A clock cycle is over: the pins have their next levels. -/
def tick (s : State) : State := { s with inputs := s.inputs.tail, cycle := s.cycle + 1 }

/-- The cycle is over if the machine goes on. -/
def endCycle (o : Result) : Result :=
  match o with
  | .next s => .next (tick s)
  | .fault f => .fault f
  | .refused r => .refused r

/-- The pin levels with `clr` inactive in this cycle. -/
def withoutClr : List Pins → List Pins
  | [] => []
  | pins :: rest => { pins with clr := false } :: rest

/-- The state right after a fetch cycle that read `w` at P: `w` stands in memory there and in I, P is incremented,
Slot1 is next (R36; log 24). -/
def loadFetched (w : Word) (s : State) : State :=
  { s with
    mem := Memory.write s.mem (busAddr s.p).toNat w, i := w, p := increment s.p, slot := .execute .slot1,
    inputs := withoutClr s.inputs }

end Sys2Proof.Machine
end

