-- ==== Sys2Proof/Machine/Alu.lean ====
section
/-! DEFINITION. The ALU instructions (`42_alu.md`); what each computes is in `Machine/Flags.lean`. -/

namespace Sys2Proof.Machine

/-- COM (R160). -/
def execCom (s : State) : Result := .next (advance { s with t := comResult s.t })

/-- SHL (R161). -/
def execShl (s : State) : Result := .next (advance { s with t := shlResult s.t })

/-- SHR (R162): T[0] goes to UART_OUT, UART_IN comes into the carry. -/
def execShr (s : State) : Result :=
  .next (advance { sendUart (s.t.getLsbD 0) s with t := shrResult (sampleUartIn s) s.t })

/-- MUL (R163): S stays. -/
def execMul (s : State) : Result :=
  .next (advance { s with t := mulT s.a s.s s.t, a := mulA s.cfg.a24MulDiv s.a s.s s.t })

/-- XOR (R164): S is popped. -/
def execXor (s : State) : Result := .next (advance { ddrop s with t := xorResult s.s s.t })

/-- AND (R165): S is popped. -/
def execAnd (s : State) : Result := .next (advance { ddrop s with t := andResult s.s s.t })

/-- DIV (R166): S stays. -/
def execDiv (s : State) : Result :=
  .next (advance { s with t := divT s.a s.s s.t, a := divA s.cfg.a24MulDiv s.a s.s s.t })

/-- ADD (R167): S is popped. -/
def execAdd (s : State) : Result := .next (advance { ddrop s with t := sum25 s.s s.t })

end Sys2Proof.Machine
end

