-- ==== Sys2Proof/Machine/MemoryAccess.lean ====
section
/-! DEFINITION. The memory access instructions (`41_memory_access.md`). -/

namespace Sys2Proof.Machine

/-- LDP (R140): the word at the old A, then A is incremented. -/
def execLdp (s : State) : Result := finish ((load (busAddr s.a) s).map incA)

/-- LDI (R141): the word at P, then P steps past it. -/
def execLdi (s : State) : Result := finish ((load (busAddr s.p) s).map incP)

/-- LD (R142): the word at A. -/
def execLd (s : State) : Result := finish (load (busAddr s.a) s)

/-- STP (R143): T to the old A, then A is incremented. -/
def execStp (s : State) : Result := finish ((store (busAddr s.a) s).map incA)

/-- ST (R144): T to A. -/
def execSt (s : State) : Result := finish (store (busAddr s.a) s)

end Sys2Proof.Machine
end

