-- ==== Sys2Proof/Machine/Register.lean ====
section
/-! DEFINITION. The register instructions (`43_register.md`): whole 25-bit values move, carries with them (R198, D7). -/

namespace Sys2Proof.Machine

/-- POP (R190): R to T, the old T to the data stack. -/
def execPop (s : State) : Result := .next (advance { dpush s.t (rdrop s) with t := s.r })

/-- LDA (R191). -/
def execLda (s : State) : Result := .next (advance { dpush s.t s with t := s.a })

/-- DUP (R192). -/
def execDup (s : State) : Result := .next (advance (dpush s.t s))

/-- OVER (R193): the old S to T, the old T pushed. -/
def execOver (s : State) : Result := .next (advance { dpush s.t s with t := s.s })

/-- PUSH (R194): S to T, the old T to the return stack. -/
def execPush (s : State) : Result := .next (advance (rpush s.t (popT s)))

/-- STA (R195): T to A, S to T. -/
def execSta (s : State) : Result := .next (advance { popT s with a := s.t })

/-- NOP (R196): the word ends. -/
def execNop (s : State) : Result := .next (endWord s)

/-- DROP (R197). -/
def execDrop (s : State) : Result := .next (advance (popT s))

end Sys2Proof.Machine
end

