-- ==== Sys2Proof/Machine/Reserved.lean ====
section
/-! DEFINITION. The reserved rows of the opcode table (`30_encoding.md` R96): no behaviour is defined, "the model must not
give it NOP semantics or any other", and the model stops with the code. -/

namespace Sys2Proof.Machine

/-- Code 0x05 (R96). -/
def execReserved05 (_s : State) : Result := reservedFault 0x05

/-- Code 0x06 (R96). -/
def execReserved06 (_s : State) : Result := reservedFault 0x06

/-- Code 0x07 (R96). -/
def execReserved07 (_s : State) : Result := reservedFault 0x07

/-- Code 0x08 (R96). -/
def execReserved08 (_s : State) : Result := reservedFault 0x08

/-- Code 0x0C (R96). -/
def execReserved0C (_s : State) : Result := reservedFault 0x0C

/-- Code 0x0E (R96). -/
def execReserved0E (_s : State) : Result := reservedFault 0x0E

/-- Codes 0x20 to 0x3F (R96). -/
def execReservedUser (low : BitVec 5) (_s : State) : Result := reservedFault (1#1 ++ low)

end Sys2Proof.Machine
end

