-- ==== Sys2Proof/Machine/Transfer.lean ====
section
/-! DEFINITION. The transfer instructions (`40_transfer.md`). P already holds the address of the transfer word plus 1. -/

namespace Sys2Proof.Machine

/-- JUMP (R120). -/
def execJump (a : PageOffset) (s : State) : Result := inSlot1 (jumpTo a) s

/-- RET (R121): allowed in any slot. -/
def execRet (s : State) : Result := .next (returnFrom s)

/-- JZ (R122): T is popped, taken or not; the test is of the old T[23:0] (D10, D11). -/
def execJz (a : PageOffset) (s : State) : Result :=
  inSlot1 (fun s => if datum s.t = 0 then jumpTo a (popT s) else popT s) s

/-- JNC (R123): nothing is popped. -/
def execJnc (a : PageOffset) (s : State) : Result :=
  inSlot1 (fun s => if carry s.t then s else jumpTo a s) s

/-- CALL (R124): all 25 bits of P are pushed. -/
def execCall (a : PageOffset) (s : State) : Result :=
  inSlot1 (fun s => jumpTo a (rpush s.p s)) s

end Sys2Proof.Machine
end

