-- ==== Sys2Proof/Machine/Dispatch.lean ====
section
/-! DEFINITION. The dispatch of instructions to their meanings, one arm a constructor. -/

namespace Sys2Proof.Machine

/-- What an instruction does when the sequencer executes it. -/
def exec (i : Instr) (s : State) : Host.Outcome State Fault Refusal :=
  match i with
  | .jump a => Sys2Proof.Machine.execJump a s
  | .ret => Sys2Proof.Machine.execRet s
  | .jz a => Sys2Proof.Machine.execJz a s
  | .jnc a => Sys2Proof.Machine.execJnc a s
  | .call a => Sys2Proof.Machine.execCall a s
  | .reserved05 => Sys2Proof.Machine.execReserved05 s
  | .reserved06 => Sys2Proof.Machine.execReserved06 s
  | .reserved07 => Sys2Proof.Machine.execReserved07 s
  | .reserved08 => Sys2Proof.Machine.execReserved08 s
  | .ldp => Sys2Proof.Machine.execLdp s
  | .ldi => Sys2Proof.Machine.execLdi s
  | .ld => Sys2Proof.Machine.execLd s
  | .reserved0C => Sys2Proof.Machine.execReserved0C s
  | .stp => Sys2Proof.Machine.execStp s
  | .reserved0E => Sys2Proof.Machine.execReserved0E s
  | .st => Sys2Proof.Machine.execSt s
  | .com => Sys2Proof.Machine.execCom s
  | .shl => Sys2Proof.Machine.execShl s
  | .shr => Sys2Proof.Machine.execShr s
  | .mul => Sys2Proof.Machine.execMul s
  | .xor => Sys2Proof.Machine.execXor s
  | .and => Sys2Proof.Machine.execAnd s
  | .div => Sys2Proof.Machine.execDiv s
  | .add => Sys2Proof.Machine.execAdd s
  | .pop => Sys2Proof.Machine.execPop s
  | .lda => Sys2Proof.Machine.execLda s
  | .dup => Sys2Proof.Machine.execDup s
  | .overS => Sys2Proof.Machine.execOver s
  | .push => Sys2Proof.Machine.execPush s
  | .sta => Sys2Proof.Machine.execSta s
  | .nop => Sys2Proof.Machine.execNop s
  | .drop => Sys2Proof.Machine.execDrop s
  | .reservedUser low => Sys2Proof.Machine.execReservedUser low s

end Sys2Proof.Machine
end

