-- ==== Sys2Proof/Machine/Step.lean ====
section
/-! DEFINITION. The step: one master-clock cycle (`10_state.md` R37). -/

namespace Sys2Proof.Machine

/-- One clock cycle: reset if `clr` is active (`70_reset_and_hazards.md` R240), else what the slot counter says (R37): the
fetch state takes an interrupt or fetches, Slot k executes its instruction of I. Then the pins have their next levels. -/
def step (s : State) : Host.Outcome State Fault Refusal :=
  if sampleClr s then .next (tick (clear s))
  else
    match s.slot with
    | .fetch => endCycle (slot0Cycle s)
    | .execute k => endCycle (exec (decodeSlot k s.i) s)

/-- The state in which the very next step runs the instruction of word `w`: the word has just been fetched from where
the machine fetches next (log 24). -/
def State.withFetchWord (s : State) (_nbits w : Nat) : State := loadFetched (BitVec.ofNat 24 w) s

end Sys2Proof.Machine
end

