-- ==== Sys2Proof/Safety.lean ====
section
/-! DEFINITION. The terms the claims use: what stays unchanged, how the stacks move, what can answer at an address, the
invariant, and runs of several instructions or cycles. -/

namespace Sys2Proof.Machine

/-! ### Frames -/

/-- A component of the state, named as in `State`. -/
inductive Field where
  | t
  | ds
  | r
  | rs
  | a
  | p
  | i
  | slot
  | ien
  | uartOut
  | mem
  | cfg
  | inputs
  | cycle
  | draws
  | outputs
deriving DecidableEq, Repr

/-- The component is the same in both states; memory is the same when every address reads the same. -/
def Field.same (f : Field) (s u : State) : Prop :=
  match f with
  | .t => u.t = s.t
  | .ds => u.ds = s.ds
  | .r => u.r = s.r
  | .rs => u.rs = s.rs
  | .a => u.a = s.a
  | .p => u.p = s.p
  | .i => u.i = s.i
  | .slot => u.slot = s.slot
  | .ien => u.ien = s.ien
  | .uartOut => u.uartOut = s.uartOut
  | .mem => ∀ x : Nat, Memory.read u.mem x = Memory.read s.mem x
  | .cfg => u.cfg = s.cfg
  | .inputs => u.inputs = s.inputs
  | .cycle => u.cycle = s.cycle
  | .draws => u.draws = s.draws
  | .outputs => u.outputs = s.outputs

/-- Every component but the listed ones is unchanged from `s` to `u`. -/
def OnlyChanges (fs : List Field) (s u : State) : Prop := ∀ f : Field, f ∉ fs → f.same s u

/-- Every address but `x` reads as before. -/
def MemChangesOnlyAt (x : Nat) (s u : State) : Prop :=
  ∀ y : Nat, y ≠ x → Memory.read u.mem y = Memory.read s.mem y

/-! ### Movements of the stacks (`10_state.md` R24, R26) -/

/-- `v` is now S and every older item is one deeper; the deepest is gone. -/
def DataPushed (v : Reg) (s u : State) : Prop :=
  u.ds[0] = v ∧ ∀ (n : Nat) (_ : n < 15), u.ds[n + 1] = s.ds[n]

/-- Every item under S is one higher; nothing is said of the deepest cell, whose value is free. -/
def DataPopped (s u : State) : Prop := ∀ (n : Nat) (_ : n < 15), u.ds[n] = s.ds[n + 1]

/-- `v` is now R, the old R is RS[0], and every older item is one deeper; the deepest is gone. -/
def ReturnPushed (v : Reg) (s u : State) : Prop :=
  u.r = v ∧ u.rs[0] = s.r ∧ ∀ (n : Nat) (_ : n < 31), u.rs[n + 1] = s.rs[n]

/-- The old RS[0] is R and every item under it is one higher; nothing is said of the deepest cell, whose value is free. -/
def ReturnPopped (s u : State) : Prop :=
  u.r = s.rs[0] ∧ ∀ (n : Nat) (_ : n < 31), u.rs[n] = s.rs[n + 1]

/-! ### What stands at an address (`20_memory.md` R73) -/

/-- RAM or ROM: a read answers the word that stands there. -/
def ReadsWord (s : State) (x : Addr) : Prop := kindAt s x = .ram ∨ ∃ b, kindAt s x = .rom b

/-- Every address is RAM. -/
def RamEverywhere (s : State) : Prop := ∀ x : Addr, kindAt s x = .ram

/-- `clr` is inactive in this cycle and the `n - 1` after it. -/
def NoReset (n : Nat) (s : State) : Prop := ∀ pins ∈ s.inputs.take n, pins.clr = false

/-- The address an instruction puts on the bus when it executes (`20_memory.md` R61), if it does. -/
def dataAddress (i : Instr) (s : State) : Option Addr :=
  match i with
  | .ldp | .ld | .stp | .st => some (busAddr s.a)
  | .ldi => some (busAddr s.p)
  | .jump _ | .ret | .jz _ | .jnc _ | .call _ | .reserved05 | .reserved06 | .reserved07 | .reserved08 | .reserved0C
  | .reserved0E | .com | .shl | .shr | .mul | .xor | .and | .div | .add | .pop | .lda | .dup | .overS | .push | .sta
  | .nop | .drop | .reservedUser _ => none

/-! ### The invariant -/

/-- What every step keeps: memory is in canonical form. (Every other bound of the machine is in the types of State.) -/
abbrev State.Inv (s : State) : Prop := Memory.wf s.mem

/-! ### Runs -/

/-- An outcome goes on with `f`, or stays stopped. -/
def andThen (o : Result) (f : State → Result) : Result :=
  match o with
  | .next s => f s
  | .fault e => .fault e
  | .refused e => .refused e

/-- Instructions executed one after another, without fetches and without a look at the pins between them. -/
def execAll : List Instr → State → Result
  | [], s => .next s
  | i :: is, s => andThen (exec i s) (execAll is)

/-- Instructions executed one after another, a clock cycle each. -/
def execCycles : List Instr → State → Result
  | [], s => .next s
  | i :: is, s => andThen (endCycle (exec i s)) (execCycles is)

/-- `n` clock cycles. -/
def stepTimes : Nat → State → Result
  | 0, s => .next s
  | n + 1, s => andThen (step s) (stepTimes n)

/-- A run that has not stopped after `n` cycles. -/
def SafeFor (n : Nat) (s : State) : Prop := ∃ u, stepTimes n s = .next u

end Sys2Proof.Machine
end

