-- ==== Sys2Proof/Certificates/Slice0/Obligations.lean ====
section
/-! DEFINITION. The statements for the provers. Each docstring names the rule of the spec a statement formalises and, where a
clause rests on a choice the spec or the model made, the decision and the log entry. The value that enters the deepest cell of
a stack on a pop is free (log 9): `DataPopped` and `ReturnPopped` say nothing of it. -/

open Sys2Proof Sys2Proof.Machine

/-! ### Encoding -/

/-- Words written out from `30_encoding.md` R91, R92 and R95 decode to the instructions they stand for (`spec/95_test_vectors.md`
gives the same words); a number of more than 24 bits is no word. -/
def Obligations.WrittenWordsDecode : Prop :=
  decodeTableWord 24 0b000000000000000100100011 = some (.jump 0x123) ∧
  decodeTableWord 24 0b000010000000000100100011 = some (.jz 0x123) ∧
  decodeTableWord 24 0b000011000000000100100011 = some (.jnc 0x123) ∧
  decodeTableWord 24 0b000100111111111111111111 = some (.call 0x3FFFF) ∧
  decodeTableWord 24 0b000001011110011110011110 = some .ret ∧
  decodeTableWord 24 0b010010011110011110011110 = some .shr ∧
  (decodeSlot .slot1 0b011101001111000001011110 = .sta ∧ decodeSlot .slot2 0b011101001111000001011110 = .st ∧
    decodeSlot .slot3 0b011101001111000001011110 = .ret ∧ decodeSlot .slot4 0b011101001111000001011110 = .nop) ∧
  decodeSlot .slot2 0b011010000101011110011110 = .reserved05 ∧
  decodeSlot .slot3 0b011010011110111111000101 = .reservedUser 0x1F ∧
  decodeTableWord 25 0x1000000 = none

/-- Decode of encode is the instruction, in every slot that may hold it, with every address and whatever the other slots hold; a slot
instruction leaves the codes of the other slots as they are (R91, R92, R95). -/
def Obligations.DecodeGivesBackTheEncodedInstruction : Prop :=
  ∀ (k : Slot) (i : Instr) (rest : Word), (i.isTransfer = true → k = .slot1) →
    decodeSlot k (encodeAt k i rest) = i ∧
    (i.isTransfer = false → ∀ j : Slot, j ≠ k → slotField j (encodeAt k i rest) = slotField j rest)

/-- Encode of decode is the word: no bit of the slot, or of a transfer word, is dropped (R91, R92, R95). -/
def Obligations.EncodeGivesBackTheDecodedWord : Prop :=
  ∀ (k : Slot) (w : Word), ((decodeSlot k w).isTransfer = true → k = .slot1) → encodeAt k (decodeSlot k w) w = w

/-! ### Codes without a behaviour -/

/-- `30_encoding.md` R96 (D18, log 20): each reserved row of the opcode table stops the model with its code. -/
def Obligations.ReservedInstructionsStop : Prop :=
  ∀ s : State,
    exec .reserved05 s = .fault (.reservedCode 0x05) ∧ exec .reserved06 s = .fault (.reservedCode 0x06) ∧
    exec .reserved07 s = .fault (.reservedCode 0x07) ∧ exec .reserved08 s = .fault (.reservedCode 0x08) ∧
    exec .reserved0C s = .fault (.reservedCode 0x0C) ∧ exec .reserved0E s = .fault (.reservedCode 0x0E) ∧
    ∀ low : BitVec 5, exec (.reservedUser low) s = .fault (.reservedCode (0x20 + low.setWidth 6))

/-- R96 (D18, log 20): a cycle stops on a reserved code exactly when the slot it executes holds one of the 38, and it names that code. -/
def Obligations.ReservedCodesStopWhenReached : Prop :=
  ∀ (s : State) (k : Slot) (c : Code), sampleClr s = false → s.slot = .execute k →
    (step s = .fault (.reservedCode c) ↔
      c = slotField k s.i ∧ (c.toNat ∈ [0x05, 0x06, 0x07, 0x08, 0x0C, 0x0E] ∨ 0x20 ≤ c.toNat))

/-- R97 (D17, log 19): JUMP, JZ, JNC and CALL stop the model anywhere but in Slot1 (in the fetch state, where no step runs them: log 25). -/
def Obligations.TransferOutsideSlot1Stops : Prop :=
  ∀ (s : State) (a : PageOffset), s.slot ≠ .execute .slot1 →
    exec (.jump a) s = .fault .transferOutsideSlot1 ∧ exec (.jz a) s = .fault .transferOutsideSlot1 ∧
    exec (.jnc a) s = .fault .transferOutsideSlot1 ∧ exec (.call a) s = .fault .transferOutsideSlot1

/-! ### Transfer instructions (`40_transfer.md`) -/

/-- R120: in Slot1, P keeps its upper seven bits and takes the address (R100, D16, log 18). -/
def Obligations.JumpReplacesTheLowBitsOfP : Prop :=
  ∀ (s : State) (a : PageOffset), s.slot = .execute .slot1 → ∃ u, exec (.jump a) s = .next u ∧
    u.p.toNat = s.p.toNat / 2 ^ 18 * 2 ^ 18 + a.toNat ∧ u.slot = .fetch ∧ OnlyChanges [.p, .slot] s u

/-- R121, R217: all 25 bits of R go to P, the return stack is popped, interrupts are enabled (D23, log 23). -/
def Obligations.RetPopsReturnStackIntoP : Prop :=
  ∀ s : State, ∃ u, exec .ret s = .next u ∧ u.p = s.r ∧ ReturnPopped s u ∧ u.ien = true ∧ u.slot = .fetch ∧
    OnlyChanges [.r, .rs, .p, .ien, .slot, .draws] s u

/-- R122: T is popped, taken or not; the jump is taken exactly when the 24-bit datum was 0 (D10, D11, D16, log 14, log 18). -/
def Obligations.JzPopsAndJumpsOnZeroDatum : Prop :=
  ∀ (s : State) (a : PageOffset), s.slot = .execute .slot1 → ∃ u, exec (.jz a) s = .next u ∧
    u.t = s.ds[0] ∧ DataPopped s u ∧
    (s.t.toNat % 2 ^ 24 = 0 → u.p.toNat = s.p.toNat / 2 ^ 18 * 2 ^ 18 + a.toNat) ∧
    (s.t.toNat % 2 ^ 24 ≠ 0 → u.p = s.p) ∧ u.slot = .fetch ∧ OnlyChanges [.t, .ds, .p, .slot, .draws] s u

/-- R123: the jump is taken exactly when the carry is clear; nothing is popped (target: D16, log 18). -/
def Obligations.JncJumpsOnClearCarry : Prop :=
  ∀ (s : State) (a : PageOffset), s.slot = .execute .slot1 → ∃ u, exec (.jnc a) s = .next u ∧
    (s.t.toNat < 2 ^ 24 → u.p.toNat = s.p.toNat / 2 ^ 18 * 2 ^ 18 + a.toNat) ∧
    (2 ^ 24 ≤ s.t.toNat → u.p = s.p) ∧ u.slot = .fetch ∧ OnlyChanges [.p, .slot] s u

/-- R124: the incremented P goes to R, the old R to RS[0], and P takes the address (D5, D16, log 12, log 18). -/
def Obligations.CallPushesPAndJumps : Prop :=
  ∀ (s : State) (a : PageOffset), s.slot = .execute .slot1 → ∃ u, exec (.call a) s = .next u ∧
    ReturnPushed s.p s u ∧ u.p.toNat = s.p.toNat / 2 ^ 18 * 2 ^ 18 + a.toNat ∧ u.slot = .fetch ∧
    OnlyChanges [.r, .rs, .p, .slot] s u

/-! ### Memory access instructions (`41_memory_access.md`) -/

/-- R142: at RAM or ROM, T becomes the word at A with carry 0, the old T is pushed, A stays. -/
def Obligations.LdPushesTheWordAtA : Prop :=
  ∀ s : State, ReadsWord s (busAddr s.a) → ∃ u, exec .ld s = .next u ∧
    datum u.t = Memory.read s.mem (s.a.toNat % 2 ^ 24) ∧ carry u.t = false ∧ DataPushed s.t s u ∧
    u.slot = s.slot.next ∧ OnlyChanges [.t, .ds, .slot] s u

/-- R140: as LD, and A is incremented modulo 2^25 (D15, log 18). -/
def Obligations.LdpPushesTheWordAtAAndIncrementsA : Prop :=
  ∀ s : State, ReadsWord s (busAddr s.a) → ∃ u, exec .ldp s = .next u ∧
    datum u.t = Memory.read s.mem (s.a.toNat % 2 ^ 24) ∧ carry u.t = false ∧ DataPushed s.t s u ∧
    u.a.toNat = (s.a.toNat + 1) % 2 ^ 25 ∧ u.slot = s.slot.next ∧ OnlyChanges [.t, .ds, .a, .slot] s u

/-- R141, R101: the literal is the word at P, and P steps past it modulo 2^25 (D15, log 18). -/
def Obligations.LdiPushesTheLiteralAndStepsP : Prop :=
  ∀ s : State, ReadsWord s (busAddr s.p) → ∃ u, exec .ldi s = .next u ∧
    datum u.t = Memory.read s.mem (s.p.toNat % 2 ^ 24) ∧ carry u.t = false ∧ DataPushed s.t s u ∧
    u.p.toNat = (s.p.toNat + 1) % 2 ^ 25 ∧ u.slot = s.slot.next ∧ OnlyChanges [.t, .ds, .p, .slot] s u

/-- R144: at RAM, T[23:0] is stored at A, S with its carry is popped into T, A stays. -/
def Obligations.StStoresTAtA : Prop :=
  ∀ s : State, kindAt s (busAddr s.a) = .ram → ∃ u, exec .st s = .next u ∧
    Memory.read u.mem (busAddr s.a).toNat = datum s.t ∧ MemChangesOnlyAt (busAddr s.a).toNat s u ∧
    u.t = s.ds[0] ∧ DataPopped s u ∧ u.slot = s.slot.next ∧ OnlyChanges [.t, .ds, .mem, .slot, .draws] s u

/-- R143: as ST, at the old A, and A is incremented modulo 2^25 (D15, log 18). -/
def Obligations.StpStoresTAtAAndIncrementsA : Prop :=
  ∀ s : State, kindAt s (busAddr s.a) = .ram → ∃ u, exec .stp s = .next u ∧
    Memory.read u.mem (busAddr s.a).toNat = datum s.t ∧ MemChangesOnlyAt (busAddr s.a).toNat s u ∧
    u.t = s.ds[0] ∧ DataPopped s u ∧ u.a.toNat = (s.a.toNat + 1) % 2 ^ 25 ∧ u.slot = s.slot.next ∧
    OnlyChanges [.t, .ds, .mem, .a, .slot, .draws] s u

/-- `20_memory.md` R66 (D25, log 7): a load at a device address runs; the word is free, the carry is 0, memory is unchanged. -/
def Obligations.DeviceReadsGiveAFreeWord : Prop :=
  ∀ (s : State) (i : Instr) (x : Addr), i ∈ [Instr.ld, .ldp, .ldi] → dataAddress i s = some x →
    kindAt s x = .device → ∃ u, exec i s = .next u ∧ carry u.t = false ∧ DataPushed s.t s u ∧
      u.a.toNat = (if i = .ldp then (s.a.toNat + 1) % 2 ^ 25 else s.a.toNat) ∧
      u.p.toNat = (if i = .ldi then (s.p.toNat + 1) % 2 ^ 25 else s.p.toNat) ∧
      u.slot = s.slot.next ∧ OnlyChanges [.t, .ds, .a, .p, .slot, .draws] s u

/-- R66 (D25, log 7): a store at a device address is an output event with the address and T[23:0]; memory is unchanged. -/
def Obligations.DeviceWritesAreOutputEvents : Prop :=
  ∀ (s : State) (i : Instr), i ∈ [Instr.st, .stp] → kindAt s (busAddr s.a) = .device →
    ∃ u, exec i s = .next u ∧ u.outputs = .busWrite (busAddr s.a) (datum s.t) :: s.outputs ∧ u.t = s.ds[0] ∧
      DataPopped s u ∧ u.a.toNat = (if i = .stp then (s.a.toNat + 1) % 2 ^ 25 else s.a.toNat) ∧
      u.slot = s.slot.next ∧ OnlyChanges [.t, .ds, .a, .slot, .draws, .outputs] s u

/-- R73, U18 (D25, log 6): where the platform says that writes are ignored, a store only pops T (and steps A, if STP). -/
def Obligations.IgnoredWritesOnlyPop : Prop :=
  ∀ (s : State) (i : Instr), i ∈ [Instr.st, .stp] →
    (kindAt s (busAddr s.a) = .rom true ∨ kindAt s (busAddr s.a) = .unpopulated true) →
    ∃ u, exec i s = .next u ∧ u.t = s.ds[0] ∧ DataPopped s u ∧
      u.a.toNat = (if i = .stp then (s.a.toNat + 1) % 2 ^ 25 else s.a.toNat) ∧
      u.slot = s.slot.next ∧ OnlyChanges [.t, .ds, .a, .slot, .draws] s u

/-- R73, U17, U18 (D25, log 6): where nothing answers, loads, stores and the fetch stop the model with the address. -/
def Obligations.AccessesWithoutAnAnswerStop : Prop :=
  (∀ (s : State) (i : Instr) (x : Addr) (b : Bool), i ∈ [Instr.ld, .ldp, .ldi] → dataAddress i s = some x →
    kindAt s x = .unpopulated b → exec i s = .fault (.unpopulated x)) ∧
  (∀ (s : State) (i : Instr), i ∈ [Instr.st, .stp] → kindAt s (busAddr s.a) = .unpopulated false →
    exec i s = .fault (.unpopulated (busAddr s.a))) ∧
  (∀ (s : State) (i : Instr), i ∈ [Instr.st, .stp] → kindAt s (busAddr s.a) = .rom false →
    exec i s = .fault (.romWrite (busAddr s.a))) ∧
  (∀ (s : State) (b : Bool), sampleClr s = false → s.slot = .fetch → interruptDue s = false →
    kindAt s (busAddr s.p) = .unpopulated b → step s = .fault (.unpopulated (busAddr s.p)))

/-- `20_memory.md` R71 (c) (D27, log 26): a store to the address of the next literal is seen by the LDI that reads it. Where ST
stands in Slot4 exec of LDI runs in the fetch state, as no step does (log 25). -/
def Obligations.StoredLiteralIsSeenByLdi : Prop :=
  ∀ s : State, kindAt s (busAddr s.a) = .ram → busAddr s.a = busAddr s.p →
    ∃ u, execAll [.st, .ldi] s = .next u ∧ datum u.t = datum s.t ∧ carry u.t = false

/-! ### ALU instructions (`42_alu.md`) -/

/-- R160 (D9, log 14): each of the 24 bits is complemented, the carry stays. -/
def Obligations.ComComplementsTheDatum : Prop :=
  ∀ s : State, ∃ u, exec .com s = .next u ∧ carry u.t = carry s.t ∧
    (∀ n < 24, u.t.getLsbD n = !s.t.getLsbD n) ∧ u.slot = s.slot.next ∧ OnlyChanges [.t, .slot] s u

/-- R161: T becomes twice its datum, in 25 bits; so bit 23 is the new carry and bit 0 is clear. -/
def Obligations.ShlDoublesTheDatum : Prop :=
  ∀ s : State, ∃ u, exec .shl s = .next u ∧ u.t.toNat = 2 * (s.t.toNat % 2 ^ 24) ∧
    carry u.t = s.t.getLsbD 23 ∧ u.t.getLsbD 0 = false ∧ u.slot = s.slot.next ∧ OnlyChanges [.t, .slot] s u

/-- R162, R228: the datum is halved as a signed number (rounding down), T[0] goes to UART_OUT, the level of the pin UART_IN in this cycle into
the carry. The script of pin levels and the list of output events are the model's fields (log 2, log 28). -/
def Obligations.ShrHalvesAndExchangesSerialBits : Prop :=
  ∀ s : State, ∃ u, exec .shr s = .next u ∧ (datum u.t).toInt = (datum s.t).toInt / 2 ∧
    u.t.getLsbD 23 = s.t.getLsbD 23 ∧ (∀ n < 23, u.t.getLsbD n = s.t.getLsbD (n + 1)) ∧
    (∀ (pins : Pins) (rest : List Pins), s.inputs = pins :: rest → carry u.t = pins.uartIn) ∧
    carry u.t = sampleUartIn s ∧ u.uartOut = s.t.getLsbD 0 ∧ u.outputs = .uart (s.t.getLsbD 0) :: s.outputs ∧
    u.slot = s.slot.next ∧ OnlyChanges [.t, .uartOut, .outputs, .slot] s u

/-- R163: the 48-bit pair T:A, with S added to its high half if A[0] is set, is halved; S and the carry stay (D12, log 15);
A[24] is as the parameter says (D14, log 17). -/
def Obligations.MulAddsAndHalvesThePair : Prop :=
  ∀ s : State, ∃ u, exec .mul s = .next u ∧
    (datum u.t).toNat * 2 ^ 24 + (datum u.a).toNat =
      ((datum s.t).toNat * 2 ^ 24 + (datum s.a).toNat +
        (if s.a.getLsbD 0 then (datum s.ds[0]).toNat * 2 ^ 24 else 0)) / 2 ∧
    carry u.t = carry s.t ∧ carry u.a = (s.cfg.a24MulDiv == .keep && carry s.a) ∧
    u.slot = s.slot.next ∧ OnlyChanges [.t, .a, .slot] s u

/-- R164, R165 (D9, log 14): S is popped and combined bit by bit with the datum of T, whose carry stays. -/
def Obligations.XorAndCombineTheData : Prop :=
  ∀ s : State,
    (∃ u, exec .xor s = .next u ∧ carry u.t = carry s.t ∧
      (∀ n < 24, u.t.getLsbD n = (s.ds[0].getLsbD n != s.t.getLsbD n)) ∧ DataPopped s u ∧
      u.slot = s.slot.next ∧ OnlyChanges [.t, .ds, .slot, .draws] s u) ∧
    (∃ u, exec .and s = .next u ∧ carry u.t = carry s.t ∧
      (∀ n < 24, u.t.getLsbD n = (s.ds[0].getLsbD n && s.t.getLsbD n)) ∧ DataPopped s u ∧
      u.slot = s.slot.next ∧ OnlyChanges [.t, .ds, .slot, .draws] s u)

/-- R166: if S + T carries, T becomes the sum without its carry; then the pair T:A is doubled, the bit shifted out of the 24-bit
value is the carry (D13, log 16), and the carry of the addition enters A[0]; A[24] is as the parameter says (D14, log 17). -/
def Obligations.DivSubtractsAndDoublesThePair : Prop :=
  ∀ s : State, ∃ u x c, exec .div s = .next u ∧
    (if 2 ^ 24 ≤ (datum s.ds[0]).toNat + (datum s.t).toNat then
      x = (datum s.ds[0]).toNat + (datum s.t).toNat - 2 ^ 24 ∧ c = 1
    else x = (datum s.t).toNat ∧ c = 0) ∧
    u.t.toNat = 2 * x + (s.a.getLsbD 23).toNat ∧ (datum u.a).toNat = 2 * (s.a.toNat % 2 ^ 23) + c ∧
    carry u.a = (match s.cfg.a24MulDiv with | .keep => carry s.a | .zero => false | .shift => s.a.getLsbD 23) ∧
    u.slot = s.slot.next ∧ OnlyChanges [.t, .a, .slot] s u

/-- R167, R168: T becomes the 25-bit sum of the data of S and T, S is popped; old carries take no part (D8, log 14). -/
def Obligations.AddSumsTheDataWithCarryOut : Prop :=
  ∀ s : State, ∃ u, exec .add s = .next u ∧
    u.t.toNat = s.ds[0].toNat % 2 ^ 24 + s.t.toNat % 2 ^ 24 ∧ DataPopped s u ∧ u.slot = s.slot.next ∧
    OnlyChanges [.t, .ds, .slot, .draws] s u

/-- R169: 24 MULs leave the exact 48-bit value T0 + S * A0 in the pair T:A, and T[24], S and the stacks as they were (T[24]: D12,
log 15). The instructions run without the fetches between the words, so exec also runs in the fetch state, as no step does (log 25). -/
def Obligations.TwentyFourMulsMultiply : Prop :=
  ∀ s : State, ∃ u, execAll (List.replicate 24 .mul) s = .next u ∧
    (datum u.t).toNat * 2 ^ 24 + (datum u.a).toNat =
      (datum s.t).toNat + (datum s.ds[0]).toNat * (datum s.a).toNat ∧
    carry u.t = carry s.t ∧ OnlyChanges [.t, .a, .slot] s u

/-- R170: 25 DIVs and a SHR divide the 48-bit pair T:A by d, the negated divisor being in S, for 0 < d <= 2^23 and T0 < d: A is the
quotient, T the remainder (with bit 22 copied into bit 23), the SHR sends 0 and takes UART_IN as the carry. With S = 0 the quotient is 0. It
rests on D8, D13 (log 14, log 16). The instructions run without the fetches between the words, so exec also runs in the fetch state, as no step
does (log 25). -/
def Obligations.TwentyFiveDivsAndShrDivide : Prop :=
  (∀ (s : State) (d : Nat), 0 < d → d ≤ 2 ^ 23 → (datum s.ds[0]).toNat = 2 ^ 24 - d → (datum s.t).toNat < d →
    ∃ u, execAll (List.replicate 25 .div ++ [.shr]) s = .next u ∧
      (datum u.a).toNat = ((datum s.t).toNat * 2 ^ 24 + (datum s.a).toNat) / d ∧
      (datum u.t).toNat = ((datum s.t).toNat * 2 ^ 24 + (datum s.a).toNat) % d +
        (if ((datum s.t).toNat * 2 ^ 24 + (datum s.a).toNat) % d < 2 ^ 22 then 0 else 2 ^ 23) ∧
      carry u.t = sampleUartIn s ∧ u.uartOut = false ∧ OnlyChanges [.t, .a, .slot, .uartOut, .outputs] s u) ∧
  (∀ s : State, datum s.ds[0] = 0 →
    ∃ u, execAll (List.replicate 25 .div ++ [.shr]) s = .next u ∧ datum u.a = 0)

/-! ### Register instructions (`43_register.md`; whole 25-bit values move, D7, log 13) -/

/-- R190. -/
def Obligations.PopMovesRToT : Prop :=
  ∀ s : State, ∃ u, exec .pop s = .next u ∧ u.t = s.r ∧ DataPushed s.t s u ∧ ReturnPopped s u ∧
    u.slot = s.slot.next ∧ OnlyChanges [.t, .ds, .r, .rs, .slot, .draws] s u

/-- R191. -/
def Obligations.LdaPushesA : Prop :=
  ∀ s : State, ∃ u, exec .lda s = .next u ∧ u.t = s.a ∧ DataPushed s.t s u ∧ u.slot = s.slot.next ∧
    OnlyChanges [.t, .ds, .slot] s u

/-- R192: T is not loaded. -/
def Obligations.DupPushesT : Prop :=
  ∀ s : State, ∃ u, exec .dup s = .next u ∧ DataPushed s.t s u ∧ u.slot = s.slot.next ∧
    OnlyChanges [.ds, .slot] s u

/-- R193. -/
def Obligations.OverCopiesSOnTop : Prop :=
  ∀ s : State, ∃ u, exec .overS s = .next u ∧ u.t = s.ds[0] ∧ DataPushed s.t s u ∧ u.slot = s.slot.next ∧
    OnlyChanges [.t, .ds, .slot] s u

/-- R194. -/
def Obligations.PushMovesTToR : Prop :=
  ∀ s : State, ∃ u, exec .push s = .next u ∧ u.t = s.ds[0] ∧ DataPopped s u ∧ ReturnPushed s.t s u ∧
    u.slot = s.slot.next ∧ OnlyChanges [.t, .ds, .r, .rs, .slot, .draws] s u

/-- R195. -/
def Obligations.StaMovesTToA : Prop :=
  ∀ s : State, ∃ u, exec .sta s = .next u ∧ u.a = s.t ∧ u.t = s.ds[0] ∧ DataPopped s u ∧ u.slot = s.slot.next ∧
    OnlyChanges [.t, .ds, .a, .slot, .draws] s u

/-- R196: the next cycle is a fetch, and nothing else changes. -/
def Obligations.NopEndsTheWord : Prop :=
  ∀ s : State, ∃ u, exec .nop s = .next u ∧ u.slot = .fetch ∧ OnlyChanges [.slot] s u

/-- R197. -/
def Obligations.DropPopsT : Prop :=
  ∀ s : State, ∃ u, exec .drop s = .next u ∧ u.t = s.ds[0] ∧ DataPopped s u ∧ u.slot = s.slot.next ∧
    OnlyChanges [.t, .ds, .slot, .draws] s u

/-! ### The cycle (`10_state.md`) -/

/-- R37: with `clr` inactive, a cycle in the sequencer state of Slot k executes the instruction that slot holds, and then the pins have
their next levels; and the step after a word is placed with `withFetchWord` executes that word's Slot1 (log 1, log 24). -/
def Obligations.StepExecutesTheInstructionInTheSlot : Prop :=
  (∀ (s : State) (k : Slot), sampleClr s = false → s.slot = .execute k →
    step s = endCycle (exec (decodeSlot k s.i) s)) ∧
  (∀ (s : State) (w : Nat) (i : Instr), decodeTableWord 24 w = some i →
    step (s.withFetchWord 24 w) = endCycle (exec i (s.withFetchWord 24 w)))

/-- R36, R66: with `clr` inactive and no interrupt due, the cycle in the fetch state reads the word at P into I, increments P modulo 2^25
(D15, log 18) and goes to Slot1. RAM and ROM answer the word that stands there; a device answers a free word, of which nothing is said, and
which counts as one draw (D25, log 7); memory is unchanged in both. -/
def Obligations.FetchLoadsIAndIncrementsP : Prop :=
  ∀ s : State, sampleClr s = false → s.slot = .fetch → interruptDue s = false →
    (ReadsWord s (busAddr s.p) →
      ∃ u, step s = .next u ∧ u.i = Memory.read s.mem (s.p.toNat % 2 ^ 24) ∧
        u.p.toNat = (s.p.toNat + 1) % 2 ^ 25 ∧ u.slot = .execute .slot1 ∧ u.inputs = s.inputs.tail ∧
        u.cycle = s.cycle + 1 ∧ OnlyChanges [.i, .p, .slot, .inputs, .cycle] s u) ∧
    (kindAt s (busAddr s.p) = .device →
      ∃ u, step s = .next u ∧ u.p.toNat = (s.p.toNat + 1) % 2 ^ 25 ∧ u.slot = .execute .slot1 ∧
        u.inputs = s.inputs.tail ∧ u.cycle = s.cycle + 1 ∧ u.draws = s.draws + 1 ∧
        OnlyChanges [.i, .p, .slot, .inputs, .cycle, .draws] s u)

/-- R37, R126: the fetch state follows JUMP, JZ, JNC, CALL, RET and NOP in any slot and every instruction in Slot4; else the next slot. -/
def Obligations.NextSlotFollowsTheWord : Prop :=
  ∀ (i : Instr) (k : Slot) (s u : State), s.slot = .execute k → exec i s = .next u →
    u.slot =
      (match i, k with
      | .jump _, _ | .jz _, _ | .jnc _, _ | .call _, _ | .ret, _ | .nop, _ | _, .slot4 => .fetch
      | _, .slot1 => .execute .slot2
      | _, .slot2 => .execute .slot3
      | _, .slot3 => .execute .slot4)

/-- R99 (a), R69, R213 (a): from Slot1 on, without a reset, exactly the reached instructions of the word in I execute, one a cycle
whatever the interrupt lines do, and the machine is then in the fetch state. -/
def Obligations.WordRunsItsReachedInstructions : Prop :=
  ∀ s : State, s.slot = .execute .slot1 → NoReset 4 s →
    stepTimes (reached s.i).length s = execCycles (reached s.i) s ∧
    ∀ u, stepTimes (reached s.i).length s = .next u → u.slot = .fetch ∧ u.i = s.i

/-- R99 (b): a word that reaches no transfer instruction and no RET moves P by one for each LDI it reaches (mod 2^25: D15, log 18). -/
def Obligations.ReachedLdisStepPOverTheirLiterals : Prop :=
  ∀ s u : State, s.slot = .execute .slot1 → NoReset 4 s →
    (∀ i ∈ reached s.i, i.isTransfer = false ∧ i ≠ .ret) →
    stepTimes (reached s.i).length s = .next u → u.p.toNat = (s.p.toNat + literalCount s.i) % 2 ^ 25

/-- R213 (c): without a reset, the machine is in the fetch state, or has stopped, after at most four cycles. -/
def Obligations.FetchStateWithinFourCycles : Prop :=
  ∀ s : State, NoReset 4 s →
    ∃ n ≤ 4, (∃ f, stepTimes n s = .fault f) ∨ ∃ u, stepTimes n s = .next u ∧ u.slot = .fetch

/-- R33 (D7, D8, D9, D12, D13, log 13 to log 16): what each instruction leaves in the carry T[24]. -/
def Obligations.CarryAfterEachInstruction : Prop :=
  ∀ (i : Instr) (s u : State), exec i s = .next u →
    carry u.t =
      (match i with
      | .add => decide (2 ^ 24 ≤ s.ds[0].toNat % 2 ^ 24 + s.t.toNat % 2 ^ 24)
      | .shl => s.t.getLsbD 23
      | .div =>
        if 2 ^ 24 ≤ s.ds[0].toNat % 2 ^ 24 + s.t.toNat % 2 ^ 24 then
          (BitVec.ofNat 24 (s.ds[0].toNat + s.t.toNat)).getLsbD 23
        else s.t.getLsbD 23
      | .shr => sampleUartIn s
      | .ld | .ldp | .ldi => false
      | .jz _ | .st | .stp | .push | .sta | .drop | .overS => carry s.ds[0]
      | .pop => carry s.r
      | .lda => carry s.a
      | .com | .xor | .and | .mul | .dup | .jump _ | .jnc _ | .call _ | .ret | .nop => carry s.t
      | .reserved05 | .reserved06 | .reserved07 | .reserved08 | .reserved0C | .reserved0E | .reservedUser _ =>
        carry u.t)

/-! ### Interrupts (`60_exceptions.md`) -/

/-- R214, R215 (D19, D20, D22, log 21, log 22): in the fetch state with IEN set and a line active, P goes to R and the old R to RS[0], P is the
vector 1 to 31, IEN is cleared, the next cycle fetches, and no memory access is made. -/
def Obligations.InterruptEntryPushesPAndVectors : Prop :=
  ∀ s : State, sampleClr s = false → s.slot = .fetch → s.ien = true → sampleInt s ≠ 0 →
    ∃ u, step s = .next u ∧ ReturnPushed s.p s u ∧ u.p.toNat = (sampleInt s).toNat ∧
      1 ≤ u.p.toNat ∧ u.p.toNat ≤ 31 ∧ u.ien = false ∧ u.slot = .fetch ∧ u.inputs = s.inputs.tail ∧
      u.cycle = s.cycle + 1 ∧ OnlyChanges [.r, .rs, .p, .ien, .inputs, .cycle] s u

/-- R216: while IEN = 0 no interrupt is taken whatever the lines do: a fetch state simply fetches and the lines make no difference; nor
do they in an execute slot, IEN set or not (R213), so that no request is remembered (R212: no latch, the spec's decision D19, log 21). -/
def Obligations.LinesMakeNoDifferenceWhileDisabledOrInAWord : Prop :=
  (∀ s : State, sampleClr s = false → s.slot = .fetch → s.ien = false → step s = endCycle (fetchCycle s)) ∧
  (∀ (s : State) (pins : Pins) (rest : List Pins) (lines : IntLines), s.inputs = pins :: rest →
    (s.ien = false ∨ s.slot ≠ .fetch) → step { s with inputs := { pins with int := lines } :: rest } = step s)

/-- R121, R124, R214, R217: a RET after a CALL, or after an interrupt entry, comes back to the saved P with R and all the return stack but
its deepest cell as they were; after the entry nothing else but IEN differs. RET runs here in the fetch state, as no step does, and
its effect is the same in every slot (log 25; D22, D23, log 22, log 23). -/
def Obligations.RetUndoesCallAndInterruptEntry : Prop :=
  (∀ (s : State) (a : PageOffset), s.slot = .execute .slot1 →
    ∃ u, execAll [.call a, .ret] s = .next u ∧ (∀ (n : Nat) (_ : n < 31), u.rs[n] = s.rs[n]) ∧
      u.slot = .fetch ∧ u.ien = true ∧ OnlyChanges [.rs, .slot, .ien, .draws] s u) ∧
  (∀ (s : State) (v : IntLines),
    ∃ u, exec .ret (takeInterrupt v s) = .next u ∧ (∀ (n : Nat) (_ : n < 31), u.rs[n] = s.rs[n]) ∧
      u.slot = .fetch ∧ u.ien = true ∧ OnlyChanges [.rs, .slot, .ien, .draws] s u)

/-- R217, R218 (D19, D23, log 21, log 23): if a line is active in the cycle after a RET, the interrupt is taken before the word at the
return address is fetched, and saves that address. -/
def Obligations.PendingInterruptIsTakenRightAfterRet : Prop :=
  ∀ (s : State) (k : Slot) (pins0 pins1 : Pins) (rest : List Pins), s.inputs = pins0 :: pins1 :: rest →
    pins0.clr = false → pins1.clr = false → s.slot = .execute k → decodeSlot k s.i = .ret →
    (if s.cfg.intActiveHigh then pins1.int else ~~~pins1.int) ≠ 0 →
    ∃ u, stepTimes 2 s = .next u ∧ u.r = s.r ∧ u.rs[0] = s.rs[0] ∧
      u.p.toNat = (if s.cfg.intActiveHigh then pins1.int else ~~~pins1.int).toNat ∧ u.ien = false ∧
      u.slot = .fetch ∧ u.i = s.i ∧ u.inputs = rest

/-- R31, R212: IEN is cleared by interrupt entry and set by RET (or reset), and by nothing else. -/
def Obligations.IenChangesOnlyByEntryRetAndReset : Prop :=
  ∀ s u : State, step s = .next u → u.ien ≠ s.ien →
    (u.ien = false ∧ sampleClr s = false ∧ s.slot = .fetch ∧ sampleInt s ≠ 0 ∧ u.r = s.p) ∨
    (u.ien = true ∧ (sampleClr s = true ∨ ∃ k, s.slot = .execute k ∧ decodeSlot k s.i = .ret))

/-! ### Reset (`10_state.md` R45, `70_reset_and_hazards.md`) -/

/-- R45: every register and every stack cell is 0, the first cycle fetches; IEN = 1 is the spec's decision D21 (log 11). -/
def Obligations.ResetClearsRegistersAndStacks : Prop :=
  State.reset.t = 0 ∧ (∀ (n : Nat) (_ : n < 16), State.reset.ds[n] = 0) ∧ State.reset.r = 0 ∧
  (∀ (n : Nat) (_ : n < 32), State.reset.rs[n] = 0) ∧ State.reset.a = 0 ∧ State.reset.p = 0 ∧
  State.reset.i = 0 ∧ State.reset.slot = .fetch ∧ State.reset.ien = true

/-- R240, R219, R45: `clr` active in any cycle, that is where the pin levels of the cycle have it active (log 3), whatever was in progress and
whatever the lines, resets the core and leaves memory (D31) and the output events; IEN = 1 is D21, UART_OUT is left open (D24; log 10, log 11,
log 29). -/
def Obligations.ClrResetsInAnyCycle : Prop :=
  ∀ s : State,
    (sampleClr s = true ∨ ∃ (pins : Pins) (rest : List Pins), s.inputs = pins :: rest ∧ pins.clr = true) →
    ∃ u, step s = .next u ∧ u.t = 0 ∧ (∀ (n : Nat) (_ : n < 16), u.ds[n] = 0) ∧ u.r = 0 ∧
      (∀ (n : Nat) (_ : n < 32), u.rs[n] = 0) ∧ u.a = 0 ∧ u.p = 0 ∧ u.i = 0 ∧ u.slot = .fetch ∧ u.ien = true ∧
      u.inputs = s.inputs.tail ∧ u.cycle = s.cycle + 1 ∧
      OnlyChanges [.t, .ds, .r, .rs, .a, .p, .i, .slot, .ien, .uartOut, .inputs, .cycle, .draws] s u

/-- The invariant holds after reset. -/
def Obligations.ResetMemoryIsCanonical : Prop := State.reset.Inv

/-! ### The whole machine -/

/-- Every step keeps memory in canonical form: addresses rise strictly and stay inside the 2^24 words of `20_memory.md` R60, and no entry
equals what an unlisted address reads as (log 5, log 8). -/
def Obligations.StepKeepsMemoryCanonical : Prop :=
  ∀ s u : State, s.Inv → step s = .next u → u.Inv

/-- `20_memory.md` R61 (c): a cycle changes memory only by ST or STP, only at the address in A, only in RAM, and to T[23:0]. -/
def Obligations.MemoryChangesOnlyByStores : Prop :=
  ∀ (s u : State) (x : Nat), step s = .next u → Memory.read u.mem x ≠ Memory.read s.mem x →
    ∃ k, s.slot = .execute k ∧ (decodeSlot k s.i = .st ∨ decodeSlot k s.i = .stp) ∧ x = (busAddr s.a).toNat ∧
      kindAt s (busAddr s.a) = .ram ∧ Memory.read u.mem x = datum s.t

/-- R27, R25, R29, R32: outside reset, I is loaded only by the fetch, UART_OUT only by SHR (with T[0]), A only by LDP, STP, STA, MUL and DIV, and
the return stack only by CALL, RET, PUSH, POP and interrupt entry. -/
def Obligations.RegistersHaveOnlyTheirWriters : Prop :=
  ∀ s u : State, step s = .next u → sampleClr s = false →
    (u.i ≠ s.i → s.slot = .fetch ∧ interruptDue s = false ∧ u.slot = .execute .slot1) ∧
    (u.uartOut ≠ s.uartOut → ∃ k, s.slot = .execute k ∧ decodeSlot k s.i = .shr ∧ u.uartOut = s.t.getLsbD 0) ∧
    (u.a ≠ s.a → ∃ k, s.slot = .execute k ∧ decodeSlot k s.i ∈ [Instr.ldp, .stp, .sta, .mul, .div]) ∧
    ((u.r ≠ s.r ∨ u.rs ≠ s.rs) →
      (s.slot = .fetch ∧ interruptDue s = true) ∨
      ∃ k, s.slot = .execute k ∧ (decodeSlot k s.i ∈ [Instr.ret, .push, .pop] ∨ ∃ a, decodeSlot k s.i = .call a))

/-- `00_scope.md` R5, `20_memory.md` R65 (log 4, log 28): no step changes the platform's parameters; each step is one cycle, uses up one cycle's
pin levels and puts out at most one event. -/
def Obligations.StepKeepsParametersAndCountsCycles : Prop :=
  ∀ s u : State, step s = .next u →
    u.cfg = s.cfg ∧ u.cycle = s.cycle + 1 ∧ u.inputs = s.inputs.tail ∧ s.draws ≤ u.draws ∧
    (u.outputs = s.outputs ∨ ∃ e, u.outputs = e :: s.outputs)

/-- `60_exceptions.md` R210: no instruction traps. A step never refuses, and it stops only at a reserved code (R96), at a transfer code outside
Slot1 (R97), or where the platform has nothing that answers (R73); each fault says which (D17, D18, D25, log 6, log 19, log 20). -/
def Obligations.StepStopsOnlyWithoutADefinedBehaviour : Prop :=
  ∀ s : State, (∀ r, step s ≠ .refused r) ∧
    ∀ f, step s = .fault f → sampleClr s = false ∧
      ((s.slot = .fetch ∧ interruptDue s = false ∧ (∃ b, kindAt s (busAddr s.p) = .unpopulated b) ∧
          f = .unpopulated (busAddr s.p)) ∨
        ∃ k, s.slot = .execute k ∧
          (((decodeSlot k s.i).implemented = false ∧ f = .reservedCode (slotField k s.i)) ∨
            ((decodeSlot k s.i).isTransfer = true ∧ k ≠ .slot1 ∧ f = .transferOutsideSlot1) ∨
            ∃ x, dataAddress (decodeSlot k s.i) s = some x ∧
              (((∃ b, kindAt s x = .unpopulated b) ∧ f = .unpopulated x) ∨
                (kindAt s x = .rom false ∧ f = .romWrite x))))

/-- The converse: where every address is RAM and the slot to execute holds an implemented instruction that may stand there, the
machine goes on, whatever the registers, stacks, lines and operands hold (R210, R171). -/
def Obligations.WellPlacedInstructionsNeverStop : Prop :=
  ∀ s : State, RamEverywhere s →
    (∀ k, s.slot = .execute k → (decodeSlot k s.i).wellFormedAt k = true) → ∃ u, step s = .next u
end

