-- ==== Sys2Proof/Laws/Memory.lean ====
section
/-! SUPPORT. The laws of memory: a read after a write, and the canonical form kept by every operation. -/

namespace Sys2Proof.Machine

namespace Memory

@[simp] theorem read_nil (x : Nat) : read [] x = fill := rfl

theorem read_cons (b : Nat) (w : Word) (m : Memory) (x : Nat) :
    read ((b, w) :: m) x = if x = b then w else read m x := rfl

theorem read_erase (m : Memory) (x y : Nat) :
    read (m.erase x) y = if y = x then fill else read m y := by
  induction m with
  | nil => simp [erase]
  | cons c m ih =>
    obtain ⟨b, w⟩ := c
    simp only [erase] at ih
    by_cases hb : b = x
    · subst hb
      simp only [erase, List.filter_cons, bne_self_eq_false, Bool.false_eq_true, if_false, ih, read_cons]
      split <;> rfl
    · simp only [erase, List.filter_cons, bne_iff_ne, ne_eq, hb, not_false_eq_true, if_true, ih, read_cons]
      by_cases hy : y = b <;> simp [hy, hb]

theorem read_insert (m : Memory) (x : Nat) (v : Word) (hx : ∀ c ∈ m, c.1 ≠ x) (y : Nat) :
    read (insert x v m) y = if y = x then v else read m y := by
  induction m with
  | nil => rfl
  | cons c m ih =>
    obtain ⟨b, w⟩ := c
    have hb : b ≠ x := hx (b, w) (by simp)
    have ih := ih fun c hc => hx c (by simp [hc])
    simp only [insert]
    split
    · rfl
    · simp only [read_cons, ih]
      by_cases hy : y = b <;> simp [hy, hb]

theorem ne_of_mem_erase {m : Memory} {x : Nat} : ∀ c ∈ m.erase x, c.1 ≠ x := by
  intro c hc
  simpa using (List.mem_filter.mp hc).2

/-- What any address reads as after a store. -/
theorem read_write (m : Memory) (x : Nat) (v : Word) (y : Nat) :
    read (m.write x v) y = if y = x then v else read m y := by
  unfold write
  split
  next h => rw [read_erase, h]
  next h =>
    rw [read_insert _ _ _ ne_of_mem_erase, read_erase]
    split <;> simp_all

@[simp] theorem read_write_same (m : Memory) (x : Nat) (v : Word) : read (m.write x v) x = v := by
  simp [read_write]

theorem read_write_other (m : Memory) (x : Nat) (v : Word) {y : Nat} (h : y ≠ x) :
    read (m.write x v) y = read m y := by
  simp [read_write, h]

theorem wf_nil : wf [] := by decide

theorem wf_erase {m : Memory} (h : m.wf) (x : Nat) : (m.erase x).wf :=
  ⟨h.1.filter _, fun c hc => h.2 c (List.mem_filter.mp hc).1⟩

theorem mem_insert {m : Memory} {x : Nat} {v : Word} {c : Nat × Word} :
    c ∈ insert x v m ↔ c = (x, v) ∨ c ∈ m := by
  induction m with
  | nil => simp [insert]
  | cons d m ih =>
    obtain ⟨b, w⟩ := d
    simp only [insert]
    split
    · simp
    · simp only [List.mem_cons, ih]
      tauto

theorem pairwise_insert {m : Memory} {x : Nat} {v : Word} (h : m.Pairwise fun c d => c.1 < d.1)
    (hx : ∀ c ∈ m, c.1 ≠ x) : (insert x v m).Pairwise fun c d => c.1 < d.1 := by
  induction m with
  | nil => simp [insert]
  | cons d m ih =>
    obtain ⟨b, w⟩ := d
    have hb : b ≠ x := hx (b, w) (by simp)
    rw [List.pairwise_cons] at h
    simp only [insert]
    split
    next hlt =>
      refine List.pairwise_cons.mpr ⟨fun c hc => ?_, List.pairwise_cons.mpr h⟩
      rcases List.mem_cons.mp hc with rfl | hc
      · exact hlt
      · exact Nat.lt_trans hlt (h.1 c hc)
    next hge =>
      refine List.pairwise_cons.mpr ⟨fun c hc => ?_, ih h.2 fun c hc => hx c (by simp [hc])⟩
      rcases mem_insert.mp hc with rfl | hc
      · show b < x
        omega
      · exact h.1 c hc

/-- A store inside the address space keeps the canonical form. -/
theorem wf_write {m : Memory} (h : m.wf) {x : Nat} (hx : x < 2 ^ 24) (v : Word) : (m.write x v).wf := by
  unfold write
  split
  · exact wf_erase h x
  next hv =>
    refine ⟨pairwise_insert (wf_erase h x).1 ne_of_mem_erase, fun c hc => ?_⟩
    rcases mem_insert.mp hc with rfl | hc
    · exact ⟨hx, hv⟩
    · exact (wf_erase h x).2 c hc

end Memory

theorem reset_mem_wf : Memory.wf State.reset.mem := by decide

end Sys2Proof.Machine
end

