-- ==== Sys2Proof/Laws/Stacks.lean ====
section
/-! SUPPORT. The cells of a stack after a push and after a pop (`10_state.md` R24, R26). -/

namespace Sys2Proof.Machine

variable {n : Nat}

@[simp] theorem pushCell_zero (cells : Vector Reg (n + 1)) (v : Reg) : (pushCell cells v)[0] = v := rfl

theorem pushCell_succ (cells : Vector Reg (n + 1)) (v : Reg) (k : Nat) (h : k < n) :
    (pushCell cells v)[k + 1] = cells[k] := by
  simp [pushCell, Vector.getElem_mk, List.getElem_dropLast]

theorem popCell_get (cells : Vector Reg (n + 1)) (fill : Reg) (k : Nat) (h : k < n) :
    (popCell cells fill)[k] = cells[k + 1] := by
  have hk : k < cells.toList.tail.length := by simp [h]
  simp [popCell, Vector.getElem_mk, List.getElem_append_left hk]

theorem popCell_last (cells : Vector Reg (n + 1)) (fill : Reg) : (popCell cells fill)[n] = fill := by
  simp [popCell, Vector.getElem_mk, List.getElem_append_right]

/-- Two stores of cells are the same when each cell is. -/
theorem cells_ext {m : Nat} {x y : Vector Reg m} (h : ∀ (k : Nat) (_ : k < m), x[k] = y[k]) : x = y :=
  Vector.ext h

/-- A pop after a push gives back every cell but the deepest, which the push lost. -/
theorem popCell_pushCell_get (cells : Vector Reg (n + 1)) (v fill : Reg) (k : Nat) (h : k < n) :
    (popCell (pushCell cells v) fill)[k] = cells[k] := by
  rw [popCell_get _ _ _ h, pushCell_succ _ _ _ h]

end Sys2Proof.Machine
end

