-- ==== Sys2Proof/Laws/State.lean ====
section
/-! SUPPORT. What each shared operation makes of each component of the state: the components it writes and those it leaves. -/

namespace Sys2Proof.Machine

/-! ### dpush: `dpush` -/

@[simp] theorem dpush_t (v : Reg) (s : State) : (dpush v s).t = s.t := rfl
@[simp] theorem dpush_ds (v : Reg) (s : State) : (dpush v s).ds = pushCell (n := 15) s.ds v := rfl
@[simp] theorem dpush_r (v : Reg) (s : State) : (dpush v s).r = s.r := rfl
@[simp] theorem dpush_rs (v : Reg) (s : State) : (dpush v s).rs = s.rs := rfl
@[simp] theorem dpush_a (v : Reg) (s : State) : (dpush v s).a = s.a := rfl
@[simp] theorem dpush_p (v : Reg) (s : State) : (dpush v s).p = s.p := rfl
@[simp] theorem dpush_i (v : Reg) (s : State) : (dpush v s).i = s.i := rfl
@[simp] theorem dpush_slot (v : Reg) (s : State) : (dpush v s).slot = s.slot := rfl
@[simp] theorem dpush_ien (v : Reg) (s : State) : (dpush v s).ien = s.ien := rfl
@[simp] theorem dpush_uartOut (v : Reg) (s : State) : (dpush v s).uartOut = s.uartOut := rfl
@[simp] theorem dpush_mem (v : Reg) (s : State) : (dpush v s).mem = s.mem := rfl
@[simp] theorem dpush_cfg (v : Reg) (s : State) : (dpush v s).cfg = s.cfg := rfl
@[simp] theorem dpush_inputs (v : Reg) (s : State) : (dpush v s).inputs = s.inputs := rfl
@[simp] theorem dpush_cycle (v : Reg) (s : State) : (dpush v s).cycle = s.cycle := rfl
@[simp] theorem dpush_draws (v : Reg) (s : State) : (dpush v s).draws = s.draws := rfl
@[simp] theorem dpush_outputs (v : Reg) (s : State) : (dpush v s).outputs = s.outputs := rfl

/-! ### ddrop: `dpop` -/

@[simp] theorem ddrop_t (s : State) : (ddrop s).t = s.t := rfl
@[simp] theorem ddrop_ds (s : State) : (ddrop s).ds = popCell (n := 15) s.ds (Config.stackFill s.draws) := rfl
@[simp] theorem ddrop_r (s : State) : (ddrop s).r = s.r := rfl
@[simp] theorem ddrop_rs (s : State) : (ddrop s).rs = s.rs := rfl
@[simp] theorem ddrop_a (s : State) : (ddrop s).a = s.a := rfl
@[simp] theorem ddrop_p (s : State) : (ddrop s).p = s.p := rfl
@[simp] theorem ddrop_i (s : State) : (ddrop s).i = s.i := rfl
@[simp] theorem ddrop_slot (s : State) : (ddrop s).slot = s.slot := rfl
@[simp] theorem ddrop_ien (s : State) : (ddrop s).ien = s.ien := rfl
@[simp] theorem ddrop_uartOut (s : State) : (ddrop s).uartOut = s.uartOut := rfl
@[simp] theorem ddrop_mem (s : State) : (ddrop s).mem = s.mem := rfl
@[simp] theorem ddrop_cfg (s : State) : (ddrop s).cfg = s.cfg := rfl
@[simp] theorem ddrop_inputs (s : State) : (ddrop s).inputs = s.inputs := rfl
@[simp] theorem ddrop_cycle (s : State) : (ddrop s).cycle = s.cycle := rfl
@[simp] theorem ddrop_draws (s : State) : (ddrop s).draws = s.draws + 1 := rfl
@[simp] theorem ddrop_outputs (s : State) : (ddrop s).outputs = s.outputs := rfl

/-! ### popT: `T <- dpop()` -/

@[simp] theorem popT_t (s : State) : (popT s).t = s.s := rfl
@[simp] theorem popT_ds (s : State) : (popT s).ds = popCell (n := 15) s.ds (Config.stackFill s.draws) := rfl
@[simp] theorem popT_r (s : State) : (popT s).r = s.r := rfl
@[simp] theorem popT_rs (s : State) : (popT s).rs = s.rs := rfl
@[simp] theorem popT_a (s : State) : (popT s).a = s.a := rfl
@[simp] theorem popT_p (s : State) : (popT s).p = s.p := rfl
@[simp] theorem popT_i (s : State) : (popT s).i = s.i := rfl
@[simp] theorem popT_slot (s : State) : (popT s).slot = s.slot := rfl
@[simp] theorem popT_ien (s : State) : (popT s).ien = s.ien := rfl
@[simp] theorem popT_uartOut (s : State) : (popT s).uartOut = s.uartOut := rfl
@[simp] theorem popT_mem (s : State) : (popT s).mem = s.mem := rfl
@[simp] theorem popT_cfg (s : State) : (popT s).cfg = s.cfg := rfl
@[simp] theorem popT_inputs (s : State) : (popT s).inputs = s.inputs := rfl
@[simp] theorem popT_cycle (s : State) : (popT s).cycle = s.cycle := rfl
@[simp] theorem popT_draws (s : State) : (popT s).draws = s.draws + 1 := rfl
@[simp] theorem popT_outputs (s : State) : (popT s).outputs = s.outputs := rfl

/-! ### rpush: `rpush` -/

@[simp] theorem rpush_t (v : Reg) (s : State) : (rpush v s).t = s.t := rfl
@[simp] theorem rpush_ds (v : Reg) (s : State) : (rpush v s).ds = s.ds := rfl
@[simp] theorem rpush_r (v : Reg) (s : State) : (rpush v s).r = v := rfl
@[simp] theorem rpush_rs (v : Reg) (s : State) : (rpush v s).rs = pushCell (n := 31) s.rs s.r := rfl
@[simp] theorem rpush_a (v : Reg) (s : State) : (rpush v s).a = s.a := rfl
@[simp] theorem rpush_p (v : Reg) (s : State) : (rpush v s).p = s.p := rfl
@[simp] theorem rpush_i (v : Reg) (s : State) : (rpush v s).i = s.i := rfl
@[simp] theorem rpush_slot (v : Reg) (s : State) : (rpush v s).slot = s.slot := rfl
@[simp] theorem rpush_ien (v : Reg) (s : State) : (rpush v s).ien = s.ien := rfl
@[simp] theorem rpush_uartOut (v : Reg) (s : State) : (rpush v s).uartOut = s.uartOut := rfl
@[simp] theorem rpush_mem (v : Reg) (s : State) : (rpush v s).mem = s.mem := rfl
@[simp] theorem rpush_cfg (v : Reg) (s : State) : (rpush v s).cfg = s.cfg := rfl
@[simp] theorem rpush_inputs (v : Reg) (s : State) : (rpush v s).inputs = s.inputs := rfl
@[simp] theorem rpush_cycle (v : Reg) (s : State) : (rpush v s).cycle = s.cycle := rfl
@[simp] theorem rpush_draws (v : Reg) (s : State) : (rpush v s).draws = s.draws := rfl
@[simp] theorem rpush_outputs (v : Reg) (s : State) : (rpush v s).outputs = s.outputs := rfl

/-! ### rdrop: `rpop` -/

@[simp] theorem rdrop_t (s : State) : (rdrop s).t = s.t := rfl
@[simp] theorem rdrop_ds (s : State) : (rdrop s).ds = s.ds := rfl
@[simp] theorem rdrop_r (s : State) : (rdrop s).r = s.rs[0] := rfl
@[simp] theorem rdrop_rs (s : State) : (rdrop s).rs = popCell (n := 31) s.rs (Config.stackFill s.draws) := rfl
@[simp] theorem rdrop_a (s : State) : (rdrop s).a = s.a := rfl
@[simp] theorem rdrop_p (s : State) : (rdrop s).p = s.p := rfl
@[simp] theorem rdrop_i (s : State) : (rdrop s).i = s.i := rfl
@[simp] theorem rdrop_slot (s : State) : (rdrop s).slot = s.slot := rfl
@[simp] theorem rdrop_ien (s : State) : (rdrop s).ien = s.ien := rfl
@[simp] theorem rdrop_uartOut (s : State) : (rdrop s).uartOut = s.uartOut := rfl
@[simp] theorem rdrop_mem (s : State) : (rdrop s).mem = s.mem := rfl
@[simp] theorem rdrop_cfg (s : State) : (rdrop s).cfg = s.cfg := rfl
@[simp] theorem rdrop_inputs (s : State) : (rdrop s).inputs = s.inputs := rfl
@[simp] theorem rdrop_cycle (s : State) : (rdrop s).cycle = s.cycle := rfl
@[simp] theorem rdrop_draws (s : State) : (rdrop s).draws = s.draws + 1 := rfl
@[simp] theorem rdrop_outputs (s : State) : (rdrop s).outputs = s.outputs := rfl

/-! ### advance: the next slot -/

@[simp] theorem advance_t (s : State) : (advance s).t = s.t := rfl
@[simp] theorem advance_ds (s : State) : (advance s).ds = s.ds := rfl
@[simp] theorem advance_r (s : State) : (advance s).r = s.r := rfl
@[simp] theorem advance_rs (s : State) : (advance s).rs = s.rs := rfl
@[simp] theorem advance_a (s : State) : (advance s).a = s.a := rfl
@[simp] theorem advance_p (s : State) : (advance s).p = s.p := rfl
@[simp] theorem advance_i (s : State) : (advance s).i = s.i := rfl
@[simp] theorem advance_slot (s : State) : (advance s).slot = s.slot.next := rfl
@[simp] theorem advance_ien (s : State) : (advance s).ien = s.ien := rfl
@[simp] theorem advance_uartOut (s : State) : (advance s).uartOut = s.uartOut := rfl
@[simp] theorem advance_mem (s : State) : (advance s).mem = s.mem := rfl
@[simp] theorem advance_cfg (s : State) : (advance s).cfg = s.cfg := rfl
@[simp] theorem advance_inputs (s : State) : (advance s).inputs = s.inputs := rfl
@[simp] theorem advance_cycle (s : State) : (advance s).cycle = s.cycle := rfl
@[simp] theorem advance_draws (s : State) : (advance s).draws = s.draws := rfl
@[simp] theorem advance_outputs (s : State) : (advance s).outputs = s.outputs := rfl

/-! ### endWord: the end of a word -/

@[simp] theorem endWord_t (s : State) : (endWord s).t = s.t := rfl
@[simp] theorem endWord_ds (s : State) : (endWord s).ds = s.ds := rfl
@[simp] theorem endWord_r (s : State) : (endWord s).r = s.r := rfl
@[simp] theorem endWord_rs (s : State) : (endWord s).rs = s.rs := rfl
@[simp] theorem endWord_a (s : State) : (endWord s).a = s.a := rfl
@[simp] theorem endWord_p (s : State) : (endWord s).p = s.p := rfl
@[simp] theorem endWord_i (s : State) : (endWord s).i = s.i := rfl
@[simp] theorem endWord_slot (s : State) : (endWord s).slot = .fetch := rfl
@[simp] theorem endWord_ien (s : State) : (endWord s).ien = s.ien := rfl
@[simp] theorem endWord_uartOut (s : State) : (endWord s).uartOut = s.uartOut := rfl
@[simp] theorem endWord_mem (s : State) : (endWord s).mem = s.mem := rfl
@[simp] theorem endWord_cfg (s : State) : (endWord s).cfg = s.cfg := rfl
@[simp] theorem endWord_inputs (s : State) : (endWord s).inputs = s.inputs := rfl
@[simp] theorem endWord_cycle (s : State) : (endWord s).cycle = s.cycle := rfl
@[simp] theorem endWord_draws (s : State) : (endWord s).draws = s.draws := rfl
@[simp] theorem endWord_outputs (s : State) : (endWord s).outputs = s.outputs := rfl

/-! ### incA: the increment of A -/

@[simp] theorem incA_t (s : State) : (incA s).t = s.t := rfl
@[simp] theorem incA_ds (s : State) : (incA s).ds = s.ds := rfl
@[simp] theorem incA_r (s : State) : (incA s).r = s.r := rfl
@[simp] theorem incA_rs (s : State) : (incA s).rs = s.rs := rfl
@[simp] theorem incA_a (s : State) : (incA s).a = increment s.a := rfl
@[simp] theorem incA_p (s : State) : (incA s).p = s.p := rfl
@[simp] theorem incA_i (s : State) : (incA s).i = s.i := rfl
@[simp] theorem incA_slot (s : State) : (incA s).slot = s.slot := rfl
@[simp] theorem incA_ien (s : State) : (incA s).ien = s.ien := rfl
@[simp] theorem incA_uartOut (s : State) : (incA s).uartOut = s.uartOut := rfl
@[simp] theorem incA_mem (s : State) : (incA s).mem = s.mem := rfl
@[simp] theorem incA_cfg (s : State) : (incA s).cfg = s.cfg := rfl
@[simp] theorem incA_inputs (s : State) : (incA s).inputs = s.inputs := rfl
@[simp] theorem incA_cycle (s : State) : (incA s).cycle = s.cycle := rfl
@[simp] theorem incA_draws (s : State) : (incA s).draws = s.draws := rfl
@[simp] theorem incA_outputs (s : State) : (incA s).outputs = s.outputs := rfl

/-! ### incP: the increment of P -/

@[simp] theorem incP_t (s : State) : (incP s).t = s.t := rfl
@[simp] theorem incP_ds (s : State) : (incP s).ds = s.ds := rfl
@[simp] theorem incP_r (s : State) : (incP s).r = s.r := rfl
@[simp] theorem incP_rs (s : State) : (incP s).rs = s.rs := rfl
@[simp] theorem incP_a (s : State) : (incP s).a = s.a := rfl
@[simp] theorem incP_p (s : State) : (incP s).p = increment s.p := rfl
@[simp] theorem incP_i (s : State) : (incP s).i = s.i := rfl
@[simp] theorem incP_slot (s : State) : (incP s).slot = s.slot := rfl
@[simp] theorem incP_ien (s : State) : (incP s).ien = s.ien := rfl
@[simp] theorem incP_uartOut (s : State) : (incP s).uartOut = s.uartOut := rfl
@[simp] theorem incP_mem (s : State) : (incP s).mem = s.mem := rfl
@[simp] theorem incP_cfg (s : State) : (incP s).cfg = s.cfg := rfl
@[simp] theorem incP_inputs (s : State) : (incP s).inputs = s.inputs := rfl
@[simp] theorem incP_cycle (s : State) : (incP s).cycle = s.cycle := rfl
@[simp] theorem incP_draws (s : State) : (incP s).draws = s.draws := rfl
@[simp] theorem incP_outputs (s : State) : (incP s).outputs = s.outputs := rfl

/-! ### jumpTo: a transfer -/

@[simp] theorem jumpTo_t (x : PageOffset) (s : State) : (jumpTo x s).t = s.t := rfl
@[simp] theorem jumpTo_ds (x : PageOffset) (s : State) : (jumpTo x s).ds = s.ds := rfl
@[simp] theorem jumpTo_r (x : PageOffset) (s : State) : (jumpTo x s).r = s.r := rfl
@[simp] theorem jumpTo_rs (x : PageOffset) (s : State) : (jumpTo x s).rs = s.rs := rfl
@[simp] theorem jumpTo_a (x : PageOffset) (s : State) : (jumpTo x s).a = s.a := rfl
@[simp] theorem jumpTo_p (x : PageOffset) (s : State) : (jumpTo x s).p = transferTarget s.p x := rfl
@[simp] theorem jumpTo_i (x : PageOffset) (s : State) : (jumpTo x s).i = s.i := rfl
@[simp] theorem jumpTo_slot (x : PageOffset) (s : State) : (jumpTo x s).slot = s.slot := rfl
@[simp] theorem jumpTo_ien (x : PageOffset) (s : State) : (jumpTo x s).ien = s.ien := rfl
@[simp] theorem jumpTo_uartOut (x : PageOffset) (s : State) : (jumpTo x s).uartOut = s.uartOut := rfl
@[simp] theorem jumpTo_mem (x : PageOffset) (s : State) : (jumpTo x s).mem = s.mem := rfl
@[simp] theorem jumpTo_cfg (x : PageOffset) (s : State) : (jumpTo x s).cfg = s.cfg := rfl
@[simp] theorem jumpTo_inputs (x : PageOffset) (s : State) : (jumpTo x s).inputs = s.inputs := rfl
@[simp] theorem jumpTo_cycle (x : PageOffset) (s : State) : (jumpTo x s).cycle = s.cycle := rfl
@[simp] theorem jumpTo_draws (x : PageOffset) (s : State) : (jumpTo x s).draws = s.draws := rfl
@[simp] theorem jumpTo_outputs (x : PageOffset) (s : State) : (jumpTo x s).outputs = s.outputs := rfl

/-! ### sendUart: a bit sent on UART_OUT -/

@[simp] theorem sendUart_t (b : Bool) (s : State) : (sendUart b s).t = s.t := rfl
@[simp] theorem sendUart_ds (b : Bool) (s : State) : (sendUart b s).ds = s.ds := rfl
@[simp] theorem sendUart_r (b : Bool) (s : State) : (sendUart b s).r = s.r := rfl
@[simp] theorem sendUart_rs (b : Bool) (s : State) : (sendUart b s).rs = s.rs := rfl
@[simp] theorem sendUart_a (b : Bool) (s : State) : (sendUart b s).a = s.a := rfl
@[simp] theorem sendUart_p (b : Bool) (s : State) : (sendUart b s).p = s.p := rfl
@[simp] theorem sendUart_i (b : Bool) (s : State) : (sendUart b s).i = s.i := rfl
@[simp] theorem sendUart_slot (b : Bool) (s : State) : (sendUart b s).slot = s.slot := rfl
@[simp] theorem sendUart_ien (b : Bool) (s : State) : (sendUart b s).ien = s.ien := rfl
@[simp] theorem sendUart_uartOut (b : Bool) (s : State) : (sendUart b s).uartOut = b := rfl
@[simp] theorem sendUart_mem (b : Bool) (s : State) : (sendUart b s).mem = s.mem := rfl
@[simp] theorem sendUart_cfg (b : Bool) (s : State) : (sendUart b s).cfg = s.cfg := rfl
@[simp] theorem sendUart_inputs (b : Bool) (s : State) : (sendUart b s).inputs = s.inputs := rfl
@[simp] theorem sendUart_cycle (b : Bool) (s : State) : (sendUart b s).cycle = s.cycle := rfl
@[simp] theorem sendUart_draws (b : Bool) (s : State) : (sendUart b s).draws = s.draws := rfl
@[simp] theorem sendUart_outputs (b : Bool) (s : State) : (sendUart b s).outputs = .uart b :: s.outputs := rfl

/-! ### takeInterrupt: interrupt entry -/

@[simp] theorem takeInterrupt_t (v : IntLines) (s : State) : (takeInterrupt v s).t = s.t := rfl
@[simp] theorem takeInterrupt_ds (v : IntLines) (s : State) : (takeInterrupt v s).ds = s.ds := rfl
@[simp] theorem takeInterrupt_r (v : IntLines) (s : State) : (takeInterrupt v s).r = s.p := rfl
@[simp] theorem takeInterrupt_rs (v : IntLines) (s : State) :
    (takeInterrupt v s).rs = pushCell (n := 31) s.rs s.r := rfl
@[simp] theorem takeInterrupt_a (v : IntLines) (s : State) : (takeInterrupt v s).a = s.a := rfl
@[simp] theorem takeInterrupt_p (v : IntLines) (s : State) : (takeInterrupt v s).p = vectorTarget v := rfl
@[simp] theorem takeInterrupt_i (v : IntLines) (s : State) : (takeInterrupt v s).i = s.i := rfl
@[simp] theorem takeInterrupt_slot (v : IntLines) (s : State) : (takeInterrupt v s).slot = .fetch := rfl
@[simp] theorem takeInterrupt_ien (v : IntLines) (s : State) : (takeInterrupt v s).ien = false := rfl
@[simp] theorem takeInterrupt_uartOut (v : IntLines) (s : State) : (takeInterrupt v s).uartOut = s.uartOut := rfl
@[simp] theorem takeInterrupt_mem (v : IntLines) (s : State) : (takeInterrupt v s).mem = s.mem := rfl
@[simp] theorem takeInterrupt_cfg (v : IntLines) (s : State) : (takeInterrupt v s).cfg = s.cfg := rfl
@[simp] theorem takeInterrupt_inputs (v : IntLines) (s : State) : (takeInterrupt v s).inputs = s.inputs := rfl
@[simp] theorem takeInterrupt_cycle (v : IntLines) (s : State) : (takeInterrupt v s).cycle = s.cycle := rfl
@[simp] theorem takeInterrupt_draws (v : IntLines) (s : State) : (takeInterrupt v s).draws = s.draws := rfl
@[simp] theorem takeInterrupt_outputs (v : IntLines) (s : State) : (takeInterrupt v s).outputs = s.outputs := rfl

/-! ### returnFrom: RET -/

@[simp] theorem returnFrom_t (s : State) : (returnFrom s).t = s.t := rfl
@[simp] theorem returnFrom_ds (s : State) : (returnFrom s).ds = s.ds := rfl
@[simp] theorem returnFrom_r (s : State) : (returnFrom s).r = s.rs[0] := rfl
@[simp] theorem returnFrom_rs (s : State) :
    (returnFrom s).rs = popCell (n := 31) s.rs (Config.stackFill s.draws) := rfl
@[simp] theorem returnFrom_a (s : State) : (returnFrom s).a = s.a := rfl
@[simp] theorem returnFrom_p (s : State) : (returnFrom s).p = s.r := rfl
@[simp] theorem returnFrom_i (s : State) : (returnFrom s).i = s.i := rfl
@[simp] theorem returnFrom_slot (s : State) : (returnFrom s).slot = .fetch := rfl
@[simp] theorem returnFrom_ien (s : State) : (returnFrom s).ien = true := rfl
@[simp] theorem returnFrom_uartOut (s : State) : (returnFrom s).uartOut = s.uartOut := rfl
@[simp] theorem returnFrom_mem (s : State) : (returnFrom s).mem = s.mem := rfl
@[simp] theorem returnFrom_cfg (s : State) : (returnFrom s).cfg = s.cfg := rfl
@[simp] theorem returnFrom_inputs (s : State) : (returnFrom s).inputs = s.inputs := rfl
@[simp] theorem returnFrom_cycle (s : State) : (returnFrom s).cycle = s.cycle := rfl
@[simp] theorem returnFrom_draws (s : State) : (returnFrom s).draws = s.draws + 1 := rfl
@[simp] theorem returnFrom_outputs (s : State) : (returnFrom s).outputs = s.outputs := rfl

/-! ### clear: reset -/

@[simp] theorem clear_t (s : State) : (clear s).t = 0 := rfl
@[simp] theorem clear_ds (s : State) : (clear s).ds = Vector.replicate 16 0 := rfl
@[simp] theorem clear_r (s : State) : (clear s).r = 0 := rfl
@[simp] theorem clear_rs (s : State) : (clear s).rs = Vector.replicate 32 0 := rfl
@[simp] theorem clear_a (s : State) : (clear s).a = 0 := rfl
@[simp] theorem clear_p (s : State) : (clear s).p = 0 := rfl
@[simp] theorem clear_i (s : State) : (clear s).i = 0 := rfl
@[simp] theorem clear_slot (s : State) : (clear s).slot = .fetch := rfl
@[simp] theorem clear_ien (s : State) : (clear s).ien = true := rfl
@[simp] theorem clear_uartOut (s : State) : (clear s).uartOut = Config.uartOutDraw s.draws := rfl
@[simp] theorem clear_mem (s : State) : (clear s).mem = s.mem := rfl
@[simp] theorem clear_cfg (s : State) : (clear s).cfg = s.cfg := rfl
@[simp] theorem clear_inputs (s : State) : (clear s).inputs = s.inputs := rfl
@[simp] theorem clear_cycle (s : State) : (clear s).cycle = s.cycle := rfl
@[simp] theorem clear_draws (s : State) : (clear s).draws = s.draws + 1 := rfl
@[simp] theorem clear_outputs (s : State) : (clear s).outputs = s.outputs := rfl

/-! ### tick: the end of a cycle -/

@[simp] theorem tick_t (s : State) : (tick s).t = s.t := rfl
@[simp] theorem tick_ds (s : State) : (tick s).ds = s.ds := rfl
@[simp] theorem tick_r (s : State) : (tick s).r = s.r := rfl
@[simp] theorem tick_rs (s : State) : (tick s).rs = s.rs := rfl
@[simp] theorem tick_a (s : State) : (tick s).a = s.a := rfl
@[simp] theorem tick_p (s : State) : (tick s).p = s.p := rfl
@[simp] theorem tick_i (s : State) : (tick s).i = s.i := rfl
@[simp] theorem tick_slot (s : State) : (tick s).slot = s.slot := rfl
@[simp] theorem tick_ien (s : State) : (tick s).ien = s.ien := rfl
@[simp] theorem tick_uartOut (s : State) : (tick s).uartOut = s.uartOut := rfl
@[simp] theorem tick_mem (s : State) : (tick s).mem = s.mem := rfl
@[simp] theorem tick_cfg (s : State) : (tick s).cfg = s.cfg := rfl
@[simp] theorem tick_inputs (s : State) : (tick s).inputs = s.inputs.tail := rfl
@[simp] theorem tick_cycle (s : State) : (tick s).cycle = s.cycle + 1 := rfl
@[simp] theorem tick_draws (s : State) : (tick s).draws = s.draws := rfl
@[simp] theorem tick_outputs (s : State) : (tick s).outputs = s.outputs := rfl

/-! ### loadFetched: a word as just fetched -/

@[simp] theorem loadFetched_t (w : Word) (s : State) : (loadFetched w s).t = s.t := rfl
@[simp] theorem loadFetched_ds (w : Word) (s : State) : (loadFetched w s).ds = s.ds := rfl
@[simp] theorem loadFetched_r (w : Word) (s : State) : (loadFetched w s).r = s.r := rfl
@[simp] theorem loadFetched_rs (w : Word) (s : State) : (loadFetched w s).rs = s.rs := rfl
@[simp] theorem loadFetched_a (w : Word) (s : State) : (loadFetched w s).a = s.a := rfl
@[simp] theorem loadFetched_p (w : Word) (s : State) : (loadFetched w s).p = increment s.p := rfl
@[simp] theorem loadFetched_i (w : Word) (s : State) : (loadFetched w s).i = w := rfl
@[simp] theorem loadFetched_slot (w : Word) (s : State) : (loadFetched w s).slot = .execute .slot1 := rfl
@[simp] theorem loadFetched_ien (w : Word) (s : State) : (loadFetched w s).ien = s.ien := rfl
@[simp] theorem loadFetched_uartOut (w : Word) (s : State) : (loadFetched w s).uartOut = s.uartOut := rfl
@[simp] theorem loadFetched_mem (w : Word) (s : State) :
    (loadFetched w s).mem = Memory.write s.mem (busAddr s.p).toNat w := rfl
@[simp] theorem loadFetched_cfg (w : Word) (s : State) : (loadFetched w s).cfg = s.cfg := rfl
@[simp] theorem loadFetched_inputs (w : Word) (s : State) : (loadFetched w s).inputs = withoutClr s.inputs := rfl
@[simp] theorem loadFetched_cycle (w : Word) (s : State) : (loadFetched w s).cycle = s.cycle := rfl
@[simp] theorem loadFetched_draws (w : Word) (s : State) : (loadFetched w s).draws = s.draws := rfl
@[simp] theorem loadFetched_outputs (w : Word) (s : State) : (loadFetched w s).outputs = s.outputs := rfl

end Sys2Proof.Machine
end

