-- ==== Sys2Proof/Laws/Ops.lean ====
section
/-! SUPPORT. For each shared operation, everything it can answer, said once. -/

namespace Sys2Proof.Machine

/-- Where the script of pin levels has an entry, it is the levels of this cycle. -/
theorem samples_of_script {s : State} {pins : Pins} {rest : List Pins} (h : s.inputs = pins :: rest) :
    intLevels s = pins.int ∧ sampleUartIn s = pins.uartIn ∧ sampleClr s = pins.clr := by
  simp [intLevels, sampleUartIn, sampleClr, h]

/-- What a read can answer: the word of RAM or ROM, or a device's free word, which counts as a draw. -/
theorem busRead_ok {x : Addr} {s u : State} {w : Word} (h : busRead x s = .ok (w, u)) :
    (((kindAt s x = .ram ∨ ∃ b, kindAt s x = .rom b) ∧ w = Memory.read s.mem x.toNat ∧ u = s) ∨
      (kindAt s x = .device ∧ w = Config.deviceWord s.draws ∧ u = { s with draws := s.draws + 1 })) := by
  unfold busRead at h
  split at h <;> simp_all [eq_comm]

/-- When a read stops the model. -/
theorem busRead_error {x : Addr} {s : State} {f : Fault} (h : busRead x s = .error f) :
    (∃ b, kindAt s x = .unpopulated b) ∧ f = .unpopulated x := by
  unfold busRead at h
  split at h <;> simp_all

/-- What a write can answer: RAM written, a word sent to a device, or nothing. -/
theorem busWrite_ok {x : Addr} {w : Word} {s u : State} (h : busWrite x w s = .ok u) :
    (kindAt s x = .ram ∧ u = { s with mem := Memory.write s.mem x.toNat w }) ∨
      (kindAt s x = .device ∧ u = { s with outputs := .busWrite x w :: s.outputs }) ∨
      ((kindAt s x = .rom true ∨ kindAt s x = .unpopulated true) ∧ u = s) := by
  unfold busWrite at h
  split at h
  case h_2 b _ => cases b <;> simp_all
  case h_4 b _ => cases b <;> simp_all
  all_goals simp_all

/-- When a write stops the model. -/
theorem busWrite_error {x : Addr} {w : Word} {s : State} {f : Fault} (h : busWrite x w s = .error f) :
    (kindAt s x = .rom false ∧ f = .romWrite x) ∨ (kindAt s x = .unpopulated false ∧ f = .unpopulated x) := by
  unfold busWrite at h
  split at h
  case h_2 b _ => cases b <;> simp_all
  case h_4 b _ => cases b <;> simp_all
  all_goals simp_all

/-- A load at RAM or ROM. -/
theorem load_readable {x : Addr} {s : State} (h : kindAt s x = .ram ∨ ∃ b, kindAt s x = .rom b) :
    load x s = .ok { dpush s.t s with t := zext25 (Memory.read s.mem x.toNat) } := by
  rcases h with h | ⟨b, h⟩ <;> simp [load, busRead, h]

/-- A load at a device: a free word, which counts as a draw. -/
theorem load_device {x : Addr} {s : State} (h : kindAt s x = .device) :
    load x s = .ok { dpush s.t s with t := zext25 (Config.deviceWord s.draws), draws := s.draws + 1 } := by
  simp [load, busRead, h, dpush]

/-- A load where nothing is. -/
theorem load_unpopulated {x : Addr} {s : State} {b : Bool} (h : kindAt s x = .unpopulated b) :
    load x s = .error (.unpopulated x) := by
  simp [load, busRead, h]

/-- A load that answers: the word read, the old T pushed. -/
theorem load_ok {x : Addr} {s u : State} (h : load x s = .ok u) :
    ∃ w s1, busRead x s = .ok (w, s1) ∧ u = { dpush s.t s1 with t := zext25 w } := by
  unfold load at h
  split at h
  next w s1 hr => exact ⟨w, s1, hr, by simpa using h.symm⟩
  next => simp at h

theorem load_error {x : Addr} {s : State} {f : Fault} (h : load x s = .error f) : busRead x s = .error f := by
  unfold load at h
  split at h <;> simp_all

/-- A store to RAM. -/
theorem store_ram {x : Addr} {s : State} (h : kindAt s x = .ram) :
    store x s = .ok (popT { s with mem := Memory.write s.mem x.toNat (datum s.t) }) := by
  simp [store, busWrite, h]

/-- A store to a device. -/
theorem store_device {x : Addr} {s : State} (h : kindAt s x = .device) :
    store x s = .ok (popT { s with outputs := .busWrite x (datum s.t) :: s.outputs }) := by
  simp [store, busWrite, h]

/-- A store that the platform ignores. -/
theorem store_ignored {x : Addr} {s : State} (h : kindAt s x = .rom true ∨ kindAt s x = .unpopulated true) :
    store x s = .ok (popT s) := by
  rcases h with h | h <;> simp [store, busWrite, h]

/-- A store that the platform does not take. -/
theorem store_stops {x : Addr} {s : State} :
    (kindAt s x = .rom false → store x s = .error (.romWrite x)) ∧
      (kindAt s x = .unpopulated false → store x s = .error (.unpopulated x)) :=
  ⟨fun h => by simp [store, busWrite, h], fun h => by simp [store, busWrite, h]⟩

/-- A store that answers: the bus has taken T[23:0], the data stack is popped. -/
theorem store_ok {x : Addr} {s u : State} (h : store x s = .ok u) :
    ∃ s1, busWrite x (datum s.t) s = .ok s1 ∧ u = popT s1 := by
  unfold store at h
  split at h
  next s1 hw => exact ⟨s1, hw, by simpa using h.symm⟩
  next => simp at h

theorem store_error {x : Addr} {s : State} {f : Fault} (h : store x s = .error f) :
    busWrite x (datum s.t) s = .error f := by
  unfold store at h
  split at h <;> simp_all

theorem finish_next {e : Except Fault State} {u : State} (h : finish e = .next u) :
    ∃ s, e = .ok s ∧ u = advance s := by
  unfold finish at h
  split at h
  next s => exact ⟨s, rfl, by simpa using h.symm⟩
  next => simp at h

theorem finish_fault {e : Except Fault State} {f : Fault} (h : finish e = .fault f) : e = .error f := by
  unfold finish at h
  split at h <;> simp_all

/-- A transfer instruction goes on exactly in Slot1. -/
theorem inSlot1_next {effect : State → State} {s u : State} (h : inSlot1 effect s = .next u) :
    s.slot = .execute .slot1 ∧ u = endWord (effect s) := by
  unfold inSlot1 at h
  split at h
  next hs => exact ⟨hs, by simpa using h.symm⟩
  next => simp at h

theorem inSlot1_fault {effect : State → State} {s : State} {f : Fault} (h : inSlot1 effect s = .fault f) :
    s.slot ≠ .execute .slot1 ∧ f = .transferOutsideSlot1 := by
  unfold inSlot1 at h
  split at h <;> simp_all

theorem endCycle_next {o : Result} {u : State} (h : endCycle o = .next u) : ∃ s, o = .next s ∧ u = tick s := by
  cases o with
  | next s => exact ⟨s, rfl, by simpa [endCycle] using h.symm⟩
  | fault f => simp [endCycle] at h
  | refused r => simp [endCycle] at h

/-- A fetch at RAM or ROM. -/
theorem fetchCycle_readable {s : State} (h : kindAt s (busAddr s.p) = .ram ∨ ∃ b, kindAt s (busAddr s.p) = .rom b) :
    fetchCycle s = .next { s with
      i := Memory.read s.mem (busAddr s.p).toNat, p := increment s.p, slot := .execute .slot1 } := by
  rcases h with h | ⟨b, h⟩ <;> simp [fetchCycle, busRead, h]

/-- A fetch at a device: a free word, which counts as a draw. -/
theorem fetchCycle_device {s : State} (h : kindAt s (busAddr s.p) = .device) :
    fetchCycle s = .next { s with
      i := Config.deviceWord s.draws, p := increment s.p, slot := .execute .slot1, draws := s.draws + 1 } := by
  simp [fetchCycle, busRead, h]

/-- A fetch that answers: I has the word read at P, P is incremented, Slot1 is next. -/
theorem fetchCycle_next {s u : State} (h : fetchCycle s = .next u) :
    ∃ w s1, busRead (busAddr s.p) s = .ok (w, s1) ∧
      u = { s1 with i := w, p := increment s.p, slot := .execute .slot1 } := by
  unfold fetchCycle at h
  split at h
  next w s1 hr => exact ⟨w, s1, hr, by simpa using h.symm⟩
  next => simp at h

end Sys2Proof.Machine
end

