-- ==== Sys2Proof/Laws/PerInstr.lean ====
section
/-! SUPPORT. Facts about each instruction as syntax, one lemma a constructor. -/

namespace Sys2Proof.Laws.CodeMap

/-- The map of the 64 codes (`30_encoding.md` R95) reads back the code of the instruction, with any address field that
agrees with the instruction's own, if it has one. -/
def Statement (i : Instr) : Prop :=
  ∀ a : PageOffset, (∀ b, i.address = some b → a = b) → decodeCode i.code a = i

theorem jump (x : PageOffset) : Statement (.jump x) := fun a h => by obtain rfl := h x rfl; rfl
theorem ret : Statement .ret := fun _ _ => rfl
theorem jz (x : PageOffset) : Statement (.jz x) := fun a h => by obtain rfl := h x rfl; rfl
theorem jnc (x : PageOffset) : Statement (.jnc x) := fun a h => by obtain rfl := h x rfl; rfl
theorem call (x : PageOffset) : Statement (.call x) := fun a h => by obtain rfl := h x rfl; rfl
theorem reserved05 : Statement .reserved05 := fun _ _ => rfl
theorem reserved06 : Statement .reserved06 := fun _ _ => rfl
theorem reserved07 : Statement .reserved07 := fun _ _ => rfl
theorem reserved08 : Statement .reserved08 := fun _ _ => rfl
theorem ldp : Statement .ldp := fun _ _ => rfl
theorem ldi : Statement .ldi := fun _ _ => rfl
theorem ld : Statement .ld := fun _ _ => rfl
theorem reserved0C : Statement .reserved0C := fun _ _ => rfl
theorem stp : Statement .stp := fun _ _ => rfl
theorem reserved0E : Statement .reserved0E := fun _ _ => rfl
theorem st : Statement .st := fun _ _ => rfl
theorem com : Statement .com := fun _ _ => rfl
theorem shl : Statement .shl := fun _ _ => rfl
theorem shr : Statement .shr := fun _ _ => rfl
theorem mul : Statement .mul := fun _ _ => rfl
theorem xor : Statement .xor := fun _ _ => rfl
theorem and : Statement .and := fun _ _ => rfl
theorem div : Statement .div := fun _ _ => rfl
theorem add : Statement .add := fun _ _ => rfl
theorem pop : Statement .pop := fun _ _ => rfl
theorem lda : Statement .lda := fun _ _ => rfl
theorem dup : Statement .dup := fun _ _ => rfl
theorem overS : Statement .overS := fun _ _ => rfl
theorem push : Statement .push := fun _ _ => rfl
theorem sta : Statement .sta := fun _ _ => rfl
theorem nop : Statement .nop := fun _ _ => rfl
theorem drop : Statement .drop := fun _ _ => rfl
theorem reservedUser (low : BitVec 5) : Statement (.reservedUser low) := by
  intro a _
  have hn : (1#1 ++ low).toNat = 32 + low.toNat := by
    rw [BitVec.toNat_append, Nat.shiftLeft_eq, Nat.mul_comm, ← Nat.two_pow_add_eq_or_of_lt low.isLt]
    rfl
  have hl : (1#1 ++ low).extractLsb' 0 5 = low := by
    apply BitVec.eq_of_toNat_eq
    have := low.isLt
    simp only [BitVec.extractLsb'_toNat, hn]
    omega
  simp only [Instr.code, decodeCode]
  split <;> first | omega | rw [hl]

end Sys2Proof.Laws.CodeMap
end

