-- ==== Sys2Proof/Laws/Step.lean ====
section
/-! SUPPORT. Everything a step can do, and everything an instruction can do, said once. -/

namespace Sys2Proof.Machine

/-- The four kinds of cycle: reset, interrupt entry, fetch, execution of a slot (`10_state.md` R37). -/
theorem step_cases {s u : State} (h : step s = .next u) :
    (sampleClr s = true ∧ u = tick (clear s)) ∨
      (sampleClr s = false ∧ s.slot = .fetch ∧ interruptDue s = true ∧ u = tick (takeInterrupt (sampleInt s) s)) ∨
      (sampleClr s = false ∧ s.slot = .fetch ∧ interruptDue s = false ∧ ∃ v, fetchCycle s = .next v ∧ u = tick v) ∨
      (sampleClr s = false ∧ ∃ k, s.slot = .execute k ∧ ∃ v, exec (decodeSlot k s.i) s = .next v ∧ u = tick v) := by
  unfold step at h
  split at h
  next hc => exact .inl ⟨hc, by simpa using h.symm⟩
  next hc =>
    have hc : sampleClr s = false := by simpa using hc
    split at h
    next hs =>
      obtain ⟨v, hv, rfl⟩ := endCycle_next h
      unfold slot0Cycle at hv
      split at hv
      next hd =>
        obtain rfl : takeInterrupt (sampleInt s) s = v := by simpa using hv
        exact .inr (.inl ⟨hc, hs, hd, rfl⟩)
      next hd => exact .inr (.inr (.inl ⟨hc, hs, by simpa using hd, v, hv, rfl⟩))
    next k hs =>
      obtain ⟨v, hv, rfl⟩ := endCycle_next h
      exact .inr (.inr (.inr ⟨hc, k, hs, v, hv, rfl⟩))

theorem step_execute {s : State} {k : Slot} (hc : sampleClr s = false) (hs : s.slot = .execute k) :
    step s = endCycle (exec (decodeSlot k s.i) s) := by
  simp [step, hc, hs]

theorem step_fetch {s : State} (hc : sampleClr s = false) (hs : s.slot = .fetch) :
    step s = endCycle (slot0Cycle s) := by
  simp [step, hc, hs]

/-- The state an instruction of the register or ALU family, RET or NOP, leaves; none of them can stop. -/
theorem exec_register_alu (s : State) :
    exec .ret s = .next (returnFrom s) ∧
    exec .nop s = .next (endWord s) ∧
    exec .com s = .next (advance { s with t := comResult s.t }) ∧
    exec .shl s = .next (advance { s with t := shlResult s.t }) ∧
    exec .shr s = .next (advance { sendUart (s.t.getLsbD 0) s with t := shrResult (sampleUartIn s) s.t }) ∧
    exec .mul s = .next (advance { s with t := mulT s.a s.s s.t, a := mulA s.cfg.a24MulDiv s.a s.s s.t }) ∧
    exec .xor s = .next (advance { ddrop s with t := xorResult s.s s.t }) ∧
    exec .and s = .next (advance { ddrop s with t := andResult s.s s.t }) ∧
    exec .div s = .next (advance { s with t := divT s.a s.s s.t, a := divA s.cfg.a24MulDiv s.a s.s s.t }) ∧
    exec .add s = .next (advance { ddrop s with t := sum25 s.s s.t }) ∧
    exec .pop s = .next (advance { dpush s.t (rdrop s) with t := s.r }) ∧
    exec .lda s = .next (advance { dpush s.t s with t := s.a }) ∧
    exec .dup s = .next (advance (dpush s.t s)) ∧
    exec .overS s = .next (advance { dpush s.t s with t := s.s }) ∧
    exec .push s = .next (advance (rpush s.t (popT s))) ∧
    exec .sta s = .next (advance { popT s with a := s.t }) ∧
    exec .drop s = .next (advance (popT s)) :=
  ⟨rfl, rfl, rfl, rfl, rfl, rfl, rfl, rfl, rfl, rfl, rfl, rfl, rfl, rfl, rfl, rfl, rfl⟩

/-- The five memory instructions over the shared load and store. -/
theorem exec_memory (s : State) :
    exec .ldp s = finish ((load (busAddr s.a) s).map incA) ∧
    exec .ldi s = finish ((load (busAddr s.p) s).map incP) ∧
    exec .ld s = finish (load (busAddr s.a) s) ∧
    exec .stp s = finish ((store (busAddr s.a) s).map incA) ∧
    exec .st s = finish (store (busAddr s.a) s) :=
  ⟨rfl, rfl, rfl, rfl, rfl⟩

/-- The four transfer instructions in Slot1. -/
theorem exec_transfer_slot1 {s : State} (h : s.slot = .execute .slot1) (x : PageOffset) :
    exec (.jump x) s = .next (endWord (jumpTo x s)) ∧
    exec (.jz x) s = .next (endWord (if datum s.t = 0 then jumpTo x (popT s) else popT s)) ∧
    exec (.jnc x) s = .next (endWord (if carry s.t then s else jumpTo x s)) ∧
    exec (.call x) s = .next (endWord (jumpTo x (rpush s.p s))) := by
  simp [exec, execJump, execJz, execJnc, execCall, inSlot1, h]

/-- Everything an instruction that goes on keeps, and who may change the rest. -/
structure ExecKeeps (i : Instr) (s u : State) : Prop where
  latch : u.i = s.i
  cfg : u.cfg = s.cfg
  inputs : u.inputs = s.inputs
  cycle : u.cycle = s.cycle
  draws : s.draws ≤ u.draws
  outputs : u.outputs = s.outputs ∨ ∃ e, u.outputs = e :: s.outputs
  ien : u.ien ≠ s.ien → i = .ret ∧ u.ien = true
  uartOut : u.uartOut ≠ s.uartOut → i = .shr ∧ u.uartOut = s.t.getLsbD 0
  a : u.a ≠ s.a → i ∈ [Instr.ldp, .stp, .sta, .mul, .div]
  r : (u.r ≠ s.r ∨ u.rs ≠ s.rs) → i ∈ [Instr.ret, .push, .pop] ∨ ∃ a, i = .call a
  mem : u.mem ≠ s.mem → (i = .st ∨ i = .stp) ∧ kindAt s (busAddr s.a) = .ram ∧
    u.mem = Memory.write s.mem (busAddr s.a).toNat (datum s.t)

/-- A load that answers leaves everything but T, the data stack and the count of draws. -/
theorem load_keeps {x : Addr} {s u : State} (h : load x s = .ok u) :
    ∃ d, s.draws ≤ d ∧ u = { s with t := u.t, ds := u.ds, draws := d } := by
  obtain ⟨w, s1, hr, rfl⟩ := load_ok h
  rcases busRead_ok hr with ⟨-, -, rfl⟩ | ⟨-, -, rfl⟩
  · exact ⟨_, Nat.le_refl _, rfl⟩
  · exact ⟨_, Nat.le_succ _, rfl⟩

/-- A store that answers leaves everything but T, the data stack, the count of draws, and RAM or the output events. -/
theorem store_keeps {x : Addr} {s u : State} (h : store x s = .ok u) :
    (kindAt s x = .ram ∧ u = popT { s with mem := Memory.write s.mem x.toNat (datum s.t) }) ∨
      (∃ e, u = popT { s with outputs := e :: s.outputs }) ∨ u = popT s := by
  obtain ⟨s1, hw, rfl⟩ := store_ok h
  rcases busWrite_ok hw with ⟨hk, rfl⟩ | ⟨-, rfl⟩ | ⟨-, rfl⟩
  · exact .inl ⟨hk, rfl⟩
  · exact .inr (.inl ⟨_, rfl⟩)
  · exact .inr (.inr rfl)

theorem map_ok {e : Except Fault State} {f : State → State} {u : State} (h : e.map f = .ok u) :
    ∃ s, e = .ok s ∧ u = f s := by
  cases e with
  | error g => simp [Except.map] at h
  | ok s => exact ⟨s, rfl, by simpa [Except.map] using h.symm⟩

theorem exec_load_keeps {i : Instr} {s u v : State} {x : Addr} (hl : load x s = .ok v)
    (hu : u = advance v ∨ (i = .ldp ∧ u = advance (incA v)) ∨ u = advance (incP v)) : ExecKeeps i s u := by
  obtain ⟨d, hd, hv⟩ := load_keeps hl
  rw [hv] at hu
  rcases hu with rfl | ⟨rfl, rfl⟩ | rfl <;> constructor <;> simp [hd]

theorem exec_store_keeps {i : Instr} {s u v : State} (hl : store (busAddr s.a) s = .ok v)
    (hu : (i = .st ∧ u = advance v) ∨ (i = .stp ∧ u = advance (incA v))) : ExecKeeps i s u := by
  rcases store_keeps hl with ⟨hk, rfl⟩ | ⟨e, rfl⟩ | rfl <;> rcases hu with ⟨rfl, rfl⟩ | ⟨rfl, rfl⟩ <;>
    constructor <;> simp_all

/-- What any instruction keeps. -/
theorem exec_keeps {i : Instr} {s u : State} (h : exec i s = .next u) : ExecKeeps i s u := by
  cases i
  case st =>
    obtain ⟨v, hv, rfl⟩ := finish_next ((exec_memory s).2.2.2.2 ▸ h)
    exact exec_store_keeps hv (.inl ⟨rfl, rfl⟩)
  case stp =>
    obtain ⟨v, hv, rfl⟩ := finish_next ((exec_memory s).2.2.2.1 ▸ h)
    obtain ⟨w, hw, rfl⟩ := map_ok hv
    exact exec_store_keeps hw (.inr ⟨rfl, rfl⟩)
  case ld =>
    obtain ⟨v, hv, rfl⟩ := finish_next ((exec_memory s).2.2.1 ▸ h)
    exact exec_load_keeps hv (.inl rfl)
  case ldp =>
    obtain ⟨v, hv, rfl⟩ := finish_next ((exec_memory s).1 ▸ h)
    obtain ⟨w, hw, rfl⟩ := map_ok hv
    exact exec_load_keeps hw (.inr (.inl ⟨rfl, rfl⟩))
  case ldi =>
    obtain ⟨v, hv, rfl⟩ := finish_next ((exec_memory s).2.1 ▸ h)
    obtain ⟨w, hw, rfl⟩ := map_ok hv
    exact exec_load_keeps hw (.inr (.inr rfl))
  case jump | jz | jnc | call =>
    simp only [exec, execJump, execJz, execJnc, execCall] at h
    obtain ⟨-, rfl⟩ := inSlot1_next h
    constructor <;> (try split) <;> simp
  case reserved05 | reserved06 | reserved07 | reserved08 | reserved0C | reserved0E | reservedUser =>
    exact absurd h (by simp [exec, execReserved05, execReserved06, execReserved07, execReserved08, execReserved0C,
      execReserved0E, execReservedUser, reservedFault])
  all_goals
    simp only [exec_register_alu, Host.Outcome.next.injEq] at h
    subst h
    constructor <;> simp
    try tauto

/-- A fetch that goes on leaves everything but I, P, the slot counter and the count of draws. -/
theorem fetchCycle_keeps {s u : State} (h : fetchCycle s = .next u) :
    ∃ d, s.draws ≤ d ∧ u = { s with i := u.i, p := increment s.p, slot := .execute .slot1, draws := d } := by
  obtain ⟨w, s1, hr, rfl⟩ := fetchCycle_next h
  rcases busRead_ok hr with ⟨-, -, rfl⟩ | ⟨-, -, rfl⟩
  · exact ⟨_, Nat.le_refl _, rfl⟩
  · exact ⟨_, Nat.le_succ _, rfl⟩

end Sys2Proof.Machine
end

