-- ==== Sys2Proof/Laws/Stops.lean ====
section
/-! SUPPORT. Everything that can stop an instruction, said once, and the codes behind it. -/

namespace Sys2Proof.Machine

/-- A code decodes to an instruction that is not implemented exactly when it is one of the 38 reserved ones
(`30_encoding.md` R96). -/
theorem decodeCode_reserved (c : Code) (a : PageOffset) :
    (decodeCode c a).implemented = false ↔ (c.toNat ∈ [0x05, 0x06, 0x07, 0x08, 0x0C, 0x0E] ∨ 0x20 ≤ c.toNat) := by
  revert c
  have this : ∀ n < 64, (decodeCode (BitVec.ofNat 6 n) a).implemented = false ↔
      (n ∈ [0x05, 0x06, 0x07, 0x08, 0x0C, 0x0E] ∨ 0x20 ≤ n) := by
    intro n hn
    interval_cases n <;> simp [decodeCode, Instr.implemented]
  intro c
  have h := this c.toNat c.isLt
  simpa using h

/-- An instruction decoded from a code has that code (R95). -/
theorem code_decodeCode (c : Code) (a : PageOffset) : (decodeCode c a).code = c := by
  revert c
  have : ∀ n < 64, (decodeCode (BitVec.ofNat 6 n) a).code = BitVec.ofNat 6 n := by
    intro n hn
    interval_cases n <;> simp [decodeCode, Instr.code]
  intro c
  have h := this c.toNat c.isLt
  simpa using h

/-- Why an instruction stops: a reserved code, a transfer outside Slot1, or an address where nothing answers. -/
theorem exec_fault {i : Instr} {s : State} {f : Fault} (h : exec i s = .fault f) :
    (i.implemented = false ∧ f = .reservedCode i.code) ∨
      (i.isTransfer = true ∧ s.slot ≠ .execute .slot1 ∧ f = .transferOutsideSlot1) ∨
      ∃ x, dataAddress i s = some x ∧
        (((∃ b, kindAt s x = .unpopulated b) ∧ f = .unpopulated x) ∨ (kindAt s x = .rom false ∧ f = .romWrite x)) := by
  cases i
  case st =>
    have h := finish_fault ((exec_memory s).2.2.2.2 ▸ h)
    refine .inr (.inr ⟨_, rfl, ?_⟩)
    rcases busWrite_error (store_error h) with h | h
    · exact .inr h
    · exact .inl ⟨⟨_, h.1⟩, h.2⟩
  case stp =>
    have h := finish_fault ((exec_memory s).2.2.2.1 ▸ h)
    refine .inr (.inr ⟨_, rfl, ?_⟩)
    have h : store (busAddr s.a) s = .error f := by
      cases hh : store (busAddr s.a) s <;> simp_all [Except.map]
    rcases busWrite_error (store_error h) with h | h
    · exact .inr h
    · exact .inl ⟨⟨_, h.1⟩, h.2⟩
  case ld =>
    have h := finish_fault ((exec_memory s).2.2.1 ▸ h)
    exact .inr (.inr ⟨_, rfl, .inl (busRead_error (load_error h))⟩)
  case ldp =>
    have h := finish_fault ((exec_memory s).1 ▸ h)
    have h : load (busAddr s.a) s = .error f := by
      cases hh : load (busAddr s.a) s <;> simp_all [Except.map]
    exact .inr (.inr ⟨_, rfl, .inl (busRead_error (load_error h))⟩)
  case ldi =>
    have h := finish_fault ((exec_memory s).2.1 ▸ h)
    have h : load (busAddr s.p) s = .error f := by
      cases hh : load (busAddr s.p) s <;> simp_all [Except.map]
    exact .inr (.inr ⟨_, rfl, .inl (busRead_error (load_error h))⟩)
  case jump | jz | jnc | call =>
    simp only [exec, execJump, execJz, execJnc, execCall] at h
    exact .inr (.inl ⟨rfl, inSlot1_fault h⟩)
  case reserved05 | reserved06 | reserved07 | reserved08 | reserved0C | reserved0E | reservedUser =>
    left
    simpa [exec, execReserved05, execReserved06, execReserved07, execReserved08, execReserved0C,
      execReserved0E, execReservedUser, reservedFault, Instr.implemented, Instr.code, eq_comm] using h
  all_goals
    simp [exec_register_alu] at h

/-- No instruction is refused. -/
theorem exec_not_refused {i : Instr} {s : State} {r : Refusal} : exec i s ≠ .refused r := by
  intro h
  cases i
  case st | stp | ld | ldp | ldi =>
    simp only [exec_memory, finish] at h
    split at h <;> simp at h
  case jump | jz | jnc | call =>
    simp only [exec, execJump, execJz, execJnc, execCall, inSlot1] at h
    split at h <;> simp at h
  case reserved05 | reserved06 | reserved07 | reserved08 | reserved0C | reserved0E | reservedUser =>
    simp [exec, execReserved05, execReserved06, execReserved07, execReserved08, execReserved0C,
      execReserved0E, execReservedUser, reservedFault] at h
  all_goals
    simp [exec_register_alu] at h

end Sys2Proof.Machine
end

