-- ==== Sys2Proof/Laws/Words.lean ====
section
/-! SUPPORT. The parts of 25-bit registers as numbers and as bits, one fact for each function of Flags and Operands. -/

namespace Sys2Proof.Machine

theorem getLsbD_withCarry (c : Bool) (d : Word) (n : Nat) :
    (withCarry c d).getLsbD n = if n = 24 then c else d.getLsbD n := BitVec.getLsbD_cons ..

theorem getLsbD_datum (x : Reg) (n : Nat) : (datum x).getLsbD n = (decide (n < 24) && x.getLsbD n) := by
  simp [datum]

theorem getElem_datum (x : Reg) (n : Nat) (h : n < 24) : (datum x)[n] = x.getLsbD n := by
  rw [← BitVec.getLsbD_eq_getElem, getLsbD_datum]
  simp [h]

@[simp] theorem carry_withCarry (c : Bool) (d : Word) : carry (withCarry c d) = c := by
  rw [carry, getLsbD_withCarry, if_pos rfl]

@[simp] theorem datum_withCarry (c : Bool) (d : Word) : datum (withCarry c d) = d := by
  apply BitVec.eq_of_getLsbD_eq
  intro n h
  rw [getLsbD_datum, getLsbD_withCarry, if_neg (by omega)]
  simp [h]

@[simp] theorem withCarry_carry_datum (x : Reg) : withCarry (carry x) (datum x) = x := by
  apply BitVec.eq_of_getLsbD_eq
  intro n h
  rw [getLsbD_withCarry, getLsbD_datum]
  rcases Nat.lt_or_ge n 24 with hn | hn
  · simp [hn, Nat.ne_of_lt hn]
  · obtain rfl : n = 24 := by omega
    simp [carry]

/-- A register is known by its carry and its datum. -/
theorem reg_ext {x y : Reg} (hc : carry x = carry y) (hd : datum x = datum y) : x = y := by
  rw [← withCarry_carry_datum x, ← withCarry_carry_datum y, hc, hd]

theorem datum_toNat (x : Reg) : (datum x).toNat = x.toNat % 2 ^ 24 := by
  simp [datum, BitVec.extractLsb'_toNat]

theorem datum_lt (x : Reg) : (datum x).toNat < 2 ^ 24 := (datum x).isLt

theorem carry_iff (x : Reg) : carry x = true ↔ 2 ^ 24 ≤ x.toNat := by
  have h := x.isLt
  simp [carry, BitVec.getLsbD, Nat.testBit, Nat.shiftRight_eq_div_pow]
  omega

/-- A register as a number: 2^24 for the carry, and the datum. -/
theorem reg_toNat (x : Reg) : x.toNat = (if carry x then 2 ^ 24 else 0) + (datum x).toNat := by
  have h := x.isLt
  have hd := datum_toNat x
  by_cases hc : carry x = true
  · have := (carry_iff x).mp hc
    simp only [hc, if_true]
    omega
  · have : ¬ 2 ^ 24 ≤ x.toNat := fun h' => hc ((carry_iff x).mpr h')
    simp only [hc, Bool.false_eq_true, if_false]
    omega

@[simp] theorem carry_zext25 (w : Word) : carry (zext25 w) = false := carry_withCarry _ _

@[simp] theorem datum_zext25 (w : Word) : datum (zext25 w) = w := datum_withCarry _ _

/-- The adder is exact: the sum of two data, old carries apart (`42_alu.md` R168). -/
theorem sum25_toNat (s t : Reg) : (sum25 s t).toNat = (datum s).toNat + (datum t).toNat := by
  have hs := datum_lt s
  have ht := datum_lt t
  simp only [sum25, BitVec.toNat_add, BitVec.toNat_setWidth]
  omega

theorem shlResult_toNat (t : Reg) : (shlResult t).toNat = 2 * (datum t).toNat := by
  simp [shlResult, BitVec.toNat_concat]; omega

theorem increment_toNat (x : Reg) : (increment x).toNat = (x.toNat + 1) % 2 ^ 25 := by
  simp [increment, BitVec.toNat_add]

/-- The bus address steps around at the top of the address space (`10_state.md` R28). -/
theorem busAddr_increment (x : Reg) : (busAddr (increment x)).toNat = ((busAddr x).toNat + 1) % 2 ^ 24 := by
  simp only [busAddr, datum_toNat, increment_toNat]
  omega

theorem vectorTarget_toNat (v : IntLines) : (vectorTarget v).toNat = v.toNat := by
  have := v.isLt
  simp [vectorTarget, BitVec.toNat_setWidth]; omega

/-- A transfer replaces the low 18 bits (`30_encoding.md` R100). -/
theorem transferTarget_toNat (p : Reg) (a : PageOffset) :
    (transferTarget p a).toNat = p.toNat / 2 ^ 18 * 2 ^ 18 + a.toNat := by
  have ha := a.isLt
  have hp := p.isLt
  have h7 : p.toNat / 2 ^ 18 < 2 ^ 7 := by omega
  simp only [transferTarget, BitVec.toNat_append, BitVec.extractLsb'_toNat, Nat.shiftRight_eq_div_pow,
    Nat.mod_eq_of_lt h7]
  rw [Nat.shiftLeft_eq, Nat.mul_comm, Nat.two_pow_add_eq_or_of_lt ha]

end Sys2Proof.Machine
end

