-- ==== Sys2Proof/Tests/Slice0.lean ====
section
/-! SUPPORT. Tests of one cycle or one instruction each. Expected values come from `spec/95_test_vectors.md` (the row is named)
or by hand from the rule named. Then a witness for the hypotheses of each statement. -/

namespace Sys2Proof.Tests

open Sys2Proof Sys2Proof.Machine

/-- The reset state with the cells under T set. -/
def stacked (t s d : Reg) : State :=
  { State.reset with t := t, ds := ((Vector.replicate 16 0).set 0 s).set 1 d }

/-- A state about to execute a slot of a word fetched from address 0. -/
def inSlot (k : Slot) (w : Word) (s : State) : State := { s with slot := .execute k, i := w, p := 1 }

/-- One region of a kind at the addresses 0x10 to 0x1F, RAM elsewhere. -/
def withRegion (k : MemKind) (s : State) : State :=
  { s with cfg := { Platform.default with memMap := [{ base := 0x10, size := 0x10, kind := k }] } }

/-- The pin levels of this cycle, given. -/
def withPins (int : IntLines) (uartIn clr : Bool) (s : State) : State :=
  { s with inputs := [{ int := int, uartIn := uartIn, clr := clr }] }

/-- The outcome is a next state for which `f` holds. -/
def goesOn (o : Result) (f : State → Bool) : Bool :=
  match o with
  | .next s => f s
  | .fault _ => false
  | .refused _ => false

/-! ### WellFormed: each check refuses an ill-formed term -/

theorem test_wellFormed_refuses_reserved_code : Instr.wellFormedAt .slot1 .reserved05 = false := by decide

theorem test_wellFormed_refuses_user_code : Instr.wellFormedAt .slot2 (.reservedUser 3) = false := by decide

theorem test_wellFormed_refuses_jump_in_slot2 : Instr.wellFormedAt .slot2 (.jump 5) = false := by decide

theorem test_wellFormed_takes_jump_in_slot1 : Instr.wellFormedAt .slot1 (.jump 5) = true := by decide

theorem test_wellFormed_takes_ret_in_slot4 : Instr.wellFormedAt .slot4 .ret = true := by decide

/-! ### Decoding: words of `95_test_vectors.md`, "Single-instruction words" and section 2 -/

theorem test_decode_transfer_family :
    [0x000123, 0x05E79E, 0x080123, 0x0C0123, 0x100123].map (decodeTableWord 24) =
      [some (.jump 0x123), some .ret, some (.jz 0x123), some (.jnc 0x123), some (.call 0x123)] := by decide

theorem test_decode_memory_family :
    [0x25E79E, 0x29E79E, 0x2DE79E, 0x35E79E, 0x3DE79E].map (decodeTableWord 24) =
      [some .ldp, some .ldi, some .ld, some .stp, some .st] := by decide

theorem test_decode_alu_family :
    [0x41E79E, 0x45E79E, 0x49E79E, 0x4DE79E, 0x51E79E, 0x55E79E, 0x59E79E, 0x5DE79E].map (decodeTableWord 24) =
      [some .com, some .shl, some .shr, some .mul, some .xor, some .and, some .div, some .add] := by decide

theorem test_decode_register_family :
    [0x61E79E, 0x65E79E, 0x69E79E, 0x6DE79E, 0x71E79E, 0x75E79E, 0x79E79E, 0x7DE79E].map (decodeTableWord 24) =
      [some .pop, some .lda, some .dup, some .overS, some .push, some .sta, some .nop, some .drop] := by decide

/-- Bits written out from the table's rows (`30_encoding.md` R95, R96). -/
theorem test_decode_reserved_rows :
    [0b000101 * 2 ^ 18, 0b000110 * 2 ^ 18, 0b000111 * 2 ^ 18, 0b001000 * 2 ^ 18, 0b001100 * 2 ^ 18, 0b001110 * 2 ^ 18,
      0b100000 * 2 ^ 18, 0b111111 * 2 ^ 18].map (decodeTableWord 24) =
      [some .reserved05, some .reserved06, some .reserved07, some .reserved08, some .reserved0C, some .reserved0E,
        some (.reservedUser 0), some (.reservedUser 31)] := by decide

/-- Word `sta st ret nop` = 0x74F05E (`41_memory_access.md` R144, example). -/
theorem test_decode_four_slots :
    [Slot.slot1, .slot2, .slot3, .slot4].map (fun k => decodeSlot k 0x74F05E) = [.sta, .st, .ret, .nop] := by decide

/-- `ldi nop ldi` = 0x29E29E reaches one LDI (M8). -/
theorem test_reached_ends_at_nop : reached 0x29E29E = [.ldi, .nop] ∧ literalCount 0x29E29E = 1 := by decide

theorem test_encode_words_of_the_spec :
    [encode (.call 0x3FFFF), encode .mul, slotWord .mul .mul .mul .mul, slotWord .dup .ret .nop .nop] =
      [0x13FFFF, 0x4DE79E, 0x4D34D3, 0x68179E] := by decide

theorem test_decode_rejects_wide_number : decodeNat .slot1 0x1000000 = .error .widerThanAWord := by rfl

/-! ### Transfer instructions -/

/-- T3: at the last address of a page the target is in the next page. -/
theorem test_jump_next_page :
    goesOn (exec (.jump 0x123) { inSlot .slot1 0x123 State.reset with p := 0x0040000 })
      (fun u => u.p == 0x0040123 && u.slot == .fetch) = true := by decide

/-- T10, T11. -/
theorem test_ret :
    goesOn (exec .ret { State.reset with r := 0x1000123, rs := (Vector.replicate 32 0).set 0 0x456, ien := false })
      (fun u => u.p == 0x1000123 && u.r == 0x456 && u.ien && u.slot == .fetch) = true := by decide

/-- T5: the carry is no part of the test. -/
theorem test_jz_taken :
    goesOn (exec (.jz 0x123) { inSlot .slot1 0x080123 (stacked 0x1000000 7 0) with p := 0x41 })
      (fun u => u.p == 0x123 && u.t == 7 && u.slot == .fetch) = true := by decide

/-- T6. -/
theorem test_jz_not_taken :
    goesOn (exec (.jz 0x123) { inSlot .slot1 0x080123 (stacked 1 7 0) with p := 0x41 })
      (fun u => u.p == 0x41 && u.t == 7 && u.slot == .fetch) = true := by decide

/-- T7. -/
theorem test_jnc_taken :
    goesOn (exec (.jnc 0x123) { inSlot .slot1 0x0C0123 (stacked 0x0FFFFFF 7 0) with p := 0x41 })
      (fun u => u.p == 0x123 && u.t == 0x0FFFFFF && u.ds[0] == 7) = true := by decide

/-- T8. -/
theorem test_jnc_not_taken :
    goesOn (exec (.jnc 0x123) { inSlot .slot1 0x0C0123 (stacked 0x1000000 7 0) with p := 0x41 })
      (fun u => u.p == 0x41 && u.t == 0x1000000 && u.ds[0] == 7) = true := by decide

/-- T9. -/
theorem test_call :
    goesOn (exec (.call 0x3FFFF) { inSlot .slot1 0x13FFFF State.reset with t := 5, r := 0x99, p := 0x41 })
      (fun u => u.r == 0x41 && u.rs[0] == 0x99 && u.p == 0x003FFFF && u.t == 5) = true := by decide

/-- X4. -/
theorem test_transfer_outside_slot1 :
    step (inSlot .slot2 0x68079E State.reset) = .fault .transferOutsideSlot1 := by rfl

/-! ### Memory access instructions -/

/-- The memory of section 2.2. -/
def mem22 : Memory := [(0x000001, 0x123456), (0x000010, 0xABCDEF)]

/-- M1. -/
theorem test_ldp :
    goesOn (exec .ldp { stacked 0x1000055 3 0 with mem := mem22, a := 0x10 })
      (fun u => u.t == 0x0ABCDEF && u.ds[0] == 0x1000055 && u.ds[1] == 3 && u.a == 0x11) = true := by decide

/-- M2: address and A step around at the top. -/
theorem test_ldp_wraps :
    goesOn (exec .ldp { stacked 5 0 0 with mem := mem22, a := 0x1FFFFFF })
      (fun u => u.t == 0 && u.ds[0] == 5 && u.a == 0) = true := by decide

/-- M5. -/
theorem test_ldi :
    goesOn (exec .ldi { inSlot .slot1 0x29E79E (stacked 0x1000055 3 0) with mem := mem22 })
      (fun u => u.t == 0x0123456 && u.ds[0] == 0x1000055 && u.p == 2 && u.slot == .execute .slot2) = true := by decide

/-- M4: A[24] does not reach the bus. -/
theorem test_ld :
    goesOn (exec .ld { stacked 0x1000055 3 0 with mem := mem22, a := 0x1000010 })
      (fun u => u.t == 0x0ABCDEF && u.ds[0] == 0x1000055 && u.a == 0x1000010) = true := by decide

/-- M6. -/
theorem test_stp :
    goesOn (exec .stp { stacked 0x1000055 0x1000003 9 with mem := mem22, a := 0x10 })
      (fun u => Memory.read u.mem 0x10 == 0x000055 && u.t == 0x1000003 && u.ds[0] == 9 && u.a == 0x11) = true := by
  decide

/-- M7. -/
theorem test_st :
    goesOn (exec .st { stacked 0x0FFFFFF 0x1000003 9 with mem := mem22, a := 0x10 })
      (fun u => u.mem == [(0x000001, 0x123456), (0x000010, 0xFFFFFF)] && u.t == 0x1000003 && u.a == 0x10) = true := by
  decide

/-- The canonical form: storing what an unlisted address reads as takes the entry out. -/
theorem test_st_zero_unlists :
    goesOn (exec .st { stacked 0x1000000 0 0 with mem := mem22, a := 0x10 })
      (fun u => u.mem == [(0x000001, 0x123456)]) = true := by decide

/-- A device is sent the word (`20_memory.md` R66). -/
theorem test_st_device :
    goesOn (exec .st { withRegion .device (stacked 0x1000055 0 0) with a := 0x10 })
      (fun u => u.outputs == [.busWrite 0x10 0x55] && u.mem == []) = true := by decide

/-- Nothing is at the last address of the region, RAM is at the address after it (R73). -/
theorem test_unpopulated_region_edges :
    exec .ld { withRegion (.unpopulated true) State.reset with a := 0x1F } = .fault (.unpopulated 0x1F) ∧
    goesOn (exec .ld { withRegion (.unpopulated true) State.reset with a := 0x20 }) (fun u => u.t == 0) = true :=
  ⟨rfl, by decide⟩

/-! ### ALU instructions -/

/-- A1. -/
theorem test_com : goesOn (exec .com (stacked 0x1000000 0 0)) (fun u => u.t == 0x1FFFFFF) = true := by decide

/-- A3, A4. -/
theorem test_shl :
    (goesOn (exec .shl (stacked 0x0C00001 0 0)) (fun u => u.t == 0x1800002) &&
      goesOn (exec .shl (stacked 0x1400000 0 0)) (fun u => u.t == 0x0800000)) = true := by decide

/-- A5. -/
theorem test_shr_pin_high :
    goesOn (exec .shr (withPins 0 true false (stacked 0x0800003 0 0)))
      (fun u => u.t == 0x1C00001 && u.uartOut && u.outputs == [.uart true]) = true := by decide

/-- A6. -/
theorem test_shr_pin_low :
    goesOn (exec .shr (withPins 0 false false (stacked 0x1000002 0 0)))
      (fun u => u.t == 0x0000001 && !u.uartOut) = true := by decide

/-- A15, A16. -/
theorem test_mul_carry :
    (goesOn (exec .mul { stacked 0x0FFFFFF 0x0FFFFFF 0 with a := 1 }) (fun u => u.t == 0x0FFFFFF && u.a == 0) &&
      goesOn (exec .mul { stacked 0x1000004 3 0 with a := 0 }) (fun u => u.t == 0x1000002)) = true := by decide

/-- A17, under two settings of A24_MULDIV. -/
theorem test_mul_a24 :
    (goesOn (exec .mul { stacked 0 3 0 with a := 0x1000001 }) (fun u => u.t == 1 && u.a == 0x1800000) &&
      goesOn (exec .mul { stacked 0 3 0 with a := 0x1000001, cfg := { Platform.default with a24MulDiv := .zero } })
        (fun u => u.a == 0x0800000)) = true := by decide

/-- A7. -/
theorem test_xor :
    goesOn (exec .xor (stacked 0x1AAAAAA 0x0FFFFFF 7)) (fun u => u.t == 0x1555555 && u.ds[0] == 7) = true := by decide

/-- A8, A9. -/
theorem test_and :
    (goesOn (exec .and (stacked 0x1AAAAAA 0x0F0F0F0 7)) (fun u => u.t == 0x1A0A0A0 && u.ds[0] == 7) &&
      goesOn (exec .and (stacked 0x0AAAAAA 0x1F0F0F0 7)) (fun u => u.t == 0x0A0A0A0)) = true := by decide

/-- A18, A19. -/
theorem test_div :
    (goesOn (exec .div { stacked 7 0x0FFFFFD 0 with a := 0x0800000 }) (fun u => u.t == 9 && u.a == 1) &&
      goesOn (exec .div { stacked 2 0x0FFFFFD 0 with a := 0x0800001 }) (fun u => u.t == 5 && u.a == 2)) = true := by
  decide

/-- A20, A21. -/
theorem test_div_shifts_into_carry :
    (goesOn (exec .div { stacked 0x0800000 0x0FFFFFF 0 with a := 0 }) (fun u => u.t == 0x0FFFFFE && u.a == 1) &&
      goesOn (exec .div (stacked 0x0800000 0 0)) (fun u => u.t == 0x1000000 && u.a == 0)) = true := by decide

/-- A10, A11. -/
theorem test_add :
    (goesOn (exec .add (stacked 0x0FFFFFF 1 0x1000009)) (fun u => u.t == 0x1000000 && u.ds[0] == 0x1000009) &&
      goesOn (exec .add (stacked 0x1000001 0x1000001 7)) (fun u => u.t == 2 && u.ds[0] == 7)) = true := by decide

/-! ### Register instructions -/

/-- G1. -/
theorem test_pop :
    goesOn (exec .pop { stacked 5 6 0 with r := 0x1000077, rs := (Vector.replicate 32 0).set 0 0x88 })
      (fun u => u.t == 0x1000077 && u.ds[0] == 5 && u.ds[1] == 6 && u.r == 0x88) = true := by decide

/-- G3. -/
theorem test_lda :
    goesOn (exec .lda { stacked 5 6 0 with a := 0x1000010 })
      (fun u => u.t == 0x1000010 && u.ds[0] == 5 && u.ds[1] == 6 && u.a == 0x1000010) = true := by decide

/-- G5. -/
theorem test_dup :
    goesOn (exec .dup (stacked 0x1000005 6 0))
      (fun u => u.t == 0x1000005 && u.ds[0] == 0x1000005 && u.ds[1] == 6) = true := by decide

/-- X5: a push on a full stack loses the deepest cell. -/
theorem test_dup_full_stack :
    goesOn (exec .dup { State.reset with t := 0x11, ds := Vector.ofFn (fun n => BitVec.ofNat 25 (n + 1)) })
      (fun u => u.ds[0] == 0x11 && u.ds[1] == 1 && u.ds[15] == 15) = true := by decide

/-- G6. -/
theorem test_over :
    goesOn (exec .overS (stacked 5 0x1000006 9))
      (fun u => u.t == 0x1000006 && u.ds[0] == 5 && u.ds[1] == 0x1000006 && u.ds[2] == 9) = true := by decide

/-- G2. -/
theorem test_push :
    goesOn (exec .push { stacked 0x1000005 6 9 with r := 0x77 })
      (fun u => u.t == 6 && u.ds[0] == 9 && u.r == 0x1000005 && u.rs[0] == 0x77) = true := by decide

/-- G4. -/
theorem test_sta :
    goesOn (exec .sta { stacked 0x1000005 6 9 with a := 1 })
      (fun u => u.a == 0x1000005 && u.t == 6 && u.ds[0] == 9) = true := by decide

/-- G8, in the middle of a word. -/
theorem test_nop :
    goesOn (step (inSlot .slot2 0x69E5D7 (stacked 5 0 0))) (fun u => u.slot == .fetch && u.t == 5) = true := by decide

/-- G7. -/
theorem test_drop :
    goesOn (exec .drop (stacked 5 0x1000006 9)) (fun u => u.t == 0x1000006 && u.ds[0] == 9) = true := by decide

/-! ### Reserved codes (R96) -/

/-- X2, the cycle of Slot2. -/
theorem test_reserved_code_stops : step (inSlot .slot2 0x68579E State.reset) = .fault (.reservedCode 0x05) := by rfl

theorem test_reserved_user_code_stops : exec (.reservedUser 0x1F) State.reset = .fault (.reservedCode 0x3F) := by rfl

/-! ### The cycle, interrupts, reset -/

/-- X12: a fetch at the last address. -/
theorem test_fetch_wraps :
    goesOn (step (withPins 0 false false { State.reset with p := 0x0FFFFFF, mem := [(0xFFFFFF, 0x79E79E)] }))
      (fun u => u.i == 0x79E79E && u.p == 0x1000000 && u.slot == .execute .slot1) = true := by decide

/-- X8. -/
theorem test_interrupt_entry :
    goesOn (step (withPins 0b00101 false false { State.reset with p := 0x23, r := 7 }))
      (fun u => u.r == 0x23 && u.rs[0] == 7 && u.p == 5 && !u.ien && u.slot == .fetch && u.i == 0) = true := by decide

/-- X9. -/
theorem test_interrupt_disabled :
    goesOn (step (withPins 0b00101 false false { State.reset with p := 0x23, r := 7, ien := false }))
      (fun u => u.r == 7 && u.p == 0x24 && u.slot == .execute .slot1) = true := by decide

/-- With INT_ACTIVE_LEVEL low, lines at 1 are inactive (D19). -/
theorem test_interrupt_active_low :
    (sampleInt (withPins 0b11111 false false { State.reset with cfg := { Platform.default with intActiveHigh := false } })
      == 0) = true := by decide

/-- `clr` overrides an interrupt (R219, R240). -/
theorem test_clr_overrides_interrupt :
    goesOn (step (withPins 0b00001 false true { stacked 5 6 7 with p := 0x23, r := 7, ien := false, mem := mem22 }))
      (fun u => u.t == 0 && u.ds[0] == 0 && u.r == 0 && u.p == 0 && u.ien && u.mem == mem22) = true := by decide

/-- The word placed for the next step is the one it runs. -/
theorem test_withFetchWord :
    goesOn (step (State.reset.withFetchWord 24 0x69E79E)) (fun u => u.slot == .execute .slot2 && u.p == 1) = true := by
  decide

/-! ### Witnesses: for each statement with hypotheses, operands and a state that meet them -/

/-- DecodeGivesBackTheEncodedInstruction, EncodeGivesBackTheDecodedWord: a transfer instruction in Slot1, a slot instruction in Slot3
beside another slot, a transfer word, a word of slot instructions. -/
theorem witness_encoding :
    (Instr.isTransfer (.jz 0x3FFFF) = true → Slot.slot1 = .slot1) ∧
    (Instr.isTransfer .mul = true → Slot.slot3 = .slot1) ∧ Instr.isTransfer .mul = false ∧ Slot.slot1 ≠ .slot3 ∧
    ((decodeSlot .slot1 0x080123).isTransfer = true → Slot.slot1 = .slot1) ∧
    ((decodeSlot .slot4 0x74F05E).isTransfer = true → Slot.slot4 = .slot1) := by decide

/-- ReservedCodesStopWhenReached: a slot with a reserved code (0x20, the lowest of the user half) and one with none (0x1F). -/
theorem witness_reserved_code :
    (sampleClr (inSlot .slot1 0x80079E State.reset) = false ∧
      (inSlot .slot1 0x80079E State.reset).slot = .execute .slot1 ∧ slotField .slot1 0x80079E = 0x20) ∧
    (sampleClr (inSlot .slot1 0x7DE79E State.reset) = false ∧
      (inSlot .slot1 0x7DE79E State.reset).slot = .execute .slot1 ∧ slotField .slot1 0x7DE79E = 0x1F) := by decide

/-- TransferOutsideSlot1Stops. -/
theorem witness_outside_slot1 : (inSlot .slot2 0x68079E State.reset).slot ≠ .execute .slot1 := by decide

/-- JumpReplacesTheLowBitsOfP, CallPushesPAndJumps, RetUndoesCallAndInterruptEntry. -/
theorem witness_slot1 : (inSlot .slot1 0x000123 State.reset).slot = .execute .slot1 := by decide

/-- JzPopsAndJumpsOnZeroDatum: the clause for a zero datum, with the carry set, and the clause for another. -/
theorem witness_jz_clauses :
    ((inSlot .slot1 0x080123 (stacked 0x1000000 7 0)).slot = .execute .slot1 ∧
      (stacked 0x1000000 7 0).t.toNat % 2 ^ 24 = 0) ∧
    ((inSlot .slot1 0x080123 (stacked 1 7 0)).slot = .execute .slot1 ∧ (stacked 1 7 0).t.toNat % 2 ^ 24 ≠ 0) := by
  decide

/-- JncJumpsOnClearCarry: both clauses, on the two sides of the boundary. -/
theorem witness_jnc_clauses :
    ((inSlot .slot1 0x0C0123 (stacked 0x0FFFFFF 7 0)).slot = .execute .slot1 ∧
      (stacked 0x0FFFFFF 7 0).t.toNat < 2 ^ 24) ∧
    ((inSlot .slot1 0x0C0123 (stacked 0x1000000 7 0)).slot = .execute .slot1 ∧
      2 ^ 24 ≤ (stacked 0x1000000 7 0).t.toNat) := by decide

/-- LdPushesTheWordAtA, LdpPushesTheWordAtAAndIncrementsA, LdiPushesTheLiteralAndStepsP: RAM, and ROM for the addresses in A and P. -/
theorem witness_reads_word :
    ReadsWord State.reset (busAddr State.reset.a) ∧ ReadsWord State.reset (busAddr State.reset.p) ∧
    ReadsWord { withRegion (.rom false) State.reset with a := 0x10, p := 0x1F } (busAddr (0x10 : Reg)) ∧
    ReadsWord { withRegion (.rom false) State.reset with a := 0x10, p := 0x1F } (busAddr (0x1F : Reg)) :=
  ⟨.inl (by decide), .inl (by decide), .inr ⟨false, by decide⟩, .inr ⟨false, by decide⟩⟩

/-- StStoresTAtA, StpStoresTAtAAndIncrementsA; with A = P, StoredLiteralIsSeenByLdi. -/
theorem witness_store_ram :
    kindAt { State.reset with a := 0x1000001, p := 1 } (busAddr (0x1000001 : Reg)) = .ram ∧
    busAddr (0x1000001 : Reg) = busAddr (1 : Reg) := by decide

/-- DeviceReadsGiveAFreeWord, DeviceWritesAreOutputEvents: both uses of an address, at the edges of the region. -/
theorem witness_device :
    let s : State := { withRegion .device State.reset with a := 0x10, p := 0x1F }
    Instr.ldp ∈ [Instr.ld, .ldp, .ldi] ∧ dataAddress .ldp s = some 0x10 ∧ kindAt s 0x10 = .device ∧
    Instr.ldi ∈ [Instr.ld, .ldp, .ldi] ∧ dataAddress .ldi s = some 0x1F ∧ kindAt s 0x1F = .device ∧
    Instr.stp ∈ [Instr.st, .stp] ∧ kindAt s (busAddr s.a) = .device := by decide

/-- IgnoredWritesOnlyPop: both kinds of place where the platform ignores writes. -/
theorem witness_ignored_writes :
    Instr.st ∈ [Instr.st, .stp] ∧
    kindAt { withRegion (.rom true) State.reset with a := 0x10 } (busAddr (0x10 : Reg)) = .rom true ∧
    kindAt { withRegion (.unpopulated true) State.reset with a := 0x10 } (busAddr (0x10 : Reg)) = .unpopulated true := by
  decide

/-- AccessesWithoutAnAnswerStop: a load, a store to nothing, a store to ROM, a fetch. -/
theorem witness_no_answer :
    (dataAddress .ldi { withRegion (.unpopulated true) State.reset with p := 0x10 } = some 0x10 ∧
      kindAt { withRegion (.unpopulated true) State.reset with p := 0x10 } 0x10 = .unpopulated true) ∧
    kindAt { withRegion (.unpopulated false) State.reset with a := 0x1F } (busAddr (0x1F : Reg)) = .unpopulated false ∧
    kindAt { withRegion (.rom false) State.reset with a := 0x10 } (busAddr (0x10 : Reg)) = .rom false ∧
    (let s : State := { withPins 0 false false (withRegion (.unpopulated false) State.reset) with p := 0x10 };
      sampleClr s = false ∧ s.slot = .fetch ∧ interruptDue s = false ∧
        kindAt s (busAddr s.p) = .unpopulated false) := by decide

/-- TwentyFiveDivsAndShrDivide: the largest divisor with the largest high cell, the smallest divisor, and a zero divisor. -/
theorem witness_divide :
    (let s : State := { stacked 0x07FFFFF 0x0800000 0 with a := 0x0FFFFFF };
      0 < 2 ^ 23 ∧ 2 ^ 23 ≤ 2 ^ 23 ∧ (datum s.ds[0]).toNat = 2 ^ 24 - 2 ^ 23 ∧ (datum s.t).toNat < 2 ^ 23) ∧
    (let s : State := { stacked 0 0x0FFFFFF 0 with a := 5 };
      0 < 1 ∧ 1 ≤ 2 ^ 23 ∧ (datum s.ds[0]).toNat = 2 ^ 24 - 1 ∧ (datum s.t).toNat < 1) ∧
    datum (stacked 5 0x1000000 0).ds[0] = 0 := by decide

/-- StepExecutesTheInstructionInTheSlot: a slot to execute, and a table word. -/
theorem witness_execute :
    (sampleClr (inSlot .slot3 0x74F05E State.reset) = false ∧
      (inSlot .slot3 0x74F05E State.reset).slot = .execute .slot3) ∧ decodeTableWord 24 0x13FFFF = some (.call 0x3FFFF) := by
  decide

/-- FetchLoadsIAndIncrementsP, the clause for RAM and ROM: no line active; and a line active while servicing is disabled. -/
theorem witness_fetch :
    let s := withPins 0 false false State.reset
    let s' := withPins 0b10000 false false { State.reset with ien := false }
    (sampleClr s = false ∧ s.slot = .fetch ∧ interruptDue s = false ∧ ReadsWord s (busAddr s.p)) ∧
    (sampleClr s' = false ∧ s'.slot = .fetch ∧ interruptDue s' = false ∧ ReadsWord s' (busAddr s'.p)) :=
  ⟨⟨by decide, by decide, by decide, .inl (by decide)⟩, ⟨by decide, by decide, by decide, .inl (by decide)⟩⟩

/-- FetchLoadsIAndIncrementsP, the clause for a device: P, with bit 24 set, at the last address of the device's region. -/
theorem witness_fetch_device :
    let s : State := { withPins 0 false false (withRegion .device State.reset) with p := 0x100001F }
    sampleClr s = false ∧ s.slot = .fetch ∧ interruptDue s = false ∧ kindAt s (busAddr s.p) = .device := by decide

/-- R66 with R36: a fetch at a device goes on, with one draw and memory as it was. -/
theorem test_fetch_device :
    goesOn (step { withPins 0 false false (withRegion .device State.reset) with p := 0x10, mem := mem22 })
      (fun u => u.p == 0x11 && u.slot == .execute .slot1 && u.draws == 2 && u.mem == mem22) = true := by decide

/-- ShrHalvesAndExchangesSerialBits: the clause for a cycle whose pin levels are listed, at both levels. -/
theorem witness_shr_pin :
    (withPins 0 true false State.reset).inputs = { int := 0, uartIn := true, clr := false } :: [] ∧
    (withPins 0 false false State.reset).inputs = { int := 0, uartIn := false, clr := false } :: [] := by decide

/-- NextSlotFollowsTheWord, CarryAfterEachInstruction: an instruction that goes on from a slot. -/
theorem witness_exec_goes_on :
    (inSlot .slot4 0x05E79E State.reset).slot = .execute .slot4 ∧
    ∃ u, exec .add (inSlot .slot4 0x05E79E State.reset) = .next u := ⟨by decide, _, rfl⟩

/-- WordRunsItsReachedInstructions, FetchStateWithinFourCycles: Slot1 of a word, no reset in four cycles. -/
theorem witness_word :
    (inSlot .slot1 0x29E29E State.reset).slot = .execute .slot1 ∧ NoReset 4 (inSlot .slot1 0x29E29E State.reset) ∧
    NoReset 4 (withPins 0b11111 true false (inSlot .slot1 0x29E29E State.reset)) := by
  refine ⟨by decide, ?_, ?_⟩ <;> intro pins h <;> simp_all [inSlot, withPins, State.reset]

/-- ReachedLdisStepPOverTheirLiterals: `ldi nop ldi` runs two cycles. -/
theorem witness_literals :
    (∀ i ∈ reached 0x29E29E, i.isTransfer = false ∧ i ≠ .ret) ∧
    ∃ u, stepTimes (reached (inSlot .slot1 0x29E29E State.reset).i).length (inSlot .slot1 0x29E29E State.reset) = .next u :=
  ⟨by decide, _, rfl⟩

/-- InterruptEntryPushesPAndVectors: the least and the greatest vector. -/
theorem witness_interrupt :
    (let s := withPins 0b00001 false false State.reset;
      sampleClr s = false ∧ s.slot = .fetch ∧ s.ien = true ∧ sampleInt s ≠ 0) ∧
    (let s := withPins 0b11111 false false State.reset;
      sampleClr s = false ∧ s.slot = .fetch ∧ s.ien = true ∧ sampleInt s ≠ 0) := by decide

/-- LinesMakeNoDifferenceWhileDisabledOrInAWord: a disabled fetch state, and an execute slot with servicing enabled. -/
theorem witness_lines :
    (let s := withPins 0b00001 false false { State.reset with ien := false };
      sampleClr s = false ∧ s.slot = .fetch ∧ s.ien = false ∧
        s.inputs = [{ int := 0b00001, uartIn := false, clr := false }]) ∧
    (let s := withPins 0b00001 false false (inSlot .slot2 0x69E79E State.reset);
      s.inputs = [{ int := 0b00001, uartIn := false, clr := false }] ∧ s.ien = true ∧ s.slot ≠ .fetch) := by decide

/-- PendingInterruptIsTakenRightAfterRet: RET in Slot2 (T13's word), INT0 active in the next cycle. -/
theorem witness_ret_then_interrupt :
    let pins0 : Pins := { int := 0, uartIn := false, clr := false }
    let pins1 : Pins := { int := 1, uartIn := false, clr := false }
    let s : State := { inSlot .slot2 0x68179E State.reset with inputs := [pins0, pins1] }
    s.inputs = pins0 :: pins1 :: [] ∧ pins0.clr = false ∧ pins1.clr = false ∧ s.slot = .execute .slot2 ∧
    decodeSlot .slot2 s.i = .ret ∧ (if s.cfg.intActiveHigh then pins1.int else ~~~pins1.int) ≠ 0 := by decide

/-- IenChangesOnlyByEntryRetAndReset: a step that clears IEN, and one that sets it. -/
theorem witness_ien_changes :
    (∃ u, step (withPins 1 false false State.reset) = .next u ∧ u.ien ≠ (withPins 1 false false State.reset).ien) ∧
    (∃ u, step { inSlot .slot1 0x05E79E State.reset with ien := false } = .next u ∧
      u.ien ≠ { inSlot .slot1 0x05E79E State.reset with ien := false }.ien) :=
  ⟨⟨_, rfl, by decide⟩, ⟨_, rfl, by decide⟩⟩

/-- ClrResetsInAnyCycle: both forms of the hypothesis, in an execute slot with a line active. -/
theorem witness_clr :
    let s := withPins 0b00001 false true (inSlot .slot3 0x74F05E State.reset)
    sampleClr s = true ∧ s.inputs = { int := 0b00001, uartIn := false, clr := true } :: [] := by decide

/-- StepKeepsMemoryCanonical, StepKeepsParametersAndCountsCycles: a step from canonical memory. -/
theorem witness_canonical :
    State.Inv { inSlot .slot1 0x3DE79E State.reset with mem := mem22 } ∧
    ∃ u, step { inSlot .slot1 0x3DE79E State.reset with mem := mem22 } = .next u := ⟨by decide, _, rfl⟩

/-- MemoryChangesOnlyByStores: a step that changes memory. -/
theorem witness_memory_changes :
    ∃ u, step { inSlot .slot1 0x3DE79E (stacked 5 0 0) with a := 0x20 } = .next u ∧
      Memory.read u.mem 0x20 ≠ Memory.read { inSlot .slot1 0x3DE79E (stacked 5 0 0) with a := 0x20 }.mem 0x20 :=
  ⟨_, rfl, by decide⟩

/-- RegistersHaveOnlyTheirWriters: a step for each clause, in which the register changes. -/
theorem witness_register_writers :
    (let s := withPins 0 false false { State.reset with mem := [(0, 0x69E79E)] };
      sampleClr s = false ∧ ∃ u, step s = .next u ∧ u.i ≠ s.i) ∧
    (let s : State := { inSlot .slot1 0x49E79E (stacked 1 0 0) with uartOut := false };
      sampleClr s = false ∧ ∃ u, step s = .next u ∧ u.uartOut ≠ s.uartOut) ∧
    (let s := inSlot .slot1 0x75E79E (stacked 1 0 0);
      sampleClr s = false ∧ ∃ u, step s = .next u ∧ u.a ≠ s.a) ∧
    (let s := inSlot .slot1 0x71E79E (stacked 1 0 0);
      sampleClr s = false ∧ ∃ u, step s = .next u ∧ u.r ≠ s.r) := by
  refine ⟨⟨by decide, _, rfl, by decide⟩, ⟨by decide, _, rfl, by decide⟩, ⟨by decide, _, rfl, by decide⟩,
    ⟨by decide, _, rfl, by decide⟩⟩

/-- StepStopsOnlyWithoutADefinedBehaviour: a step that stops. -/
theorem witness_step_stops : step (inSlot .slot2 0x68579E State.reset) = .fault (.reservedCode 0x05) := by rfl

/-- WellPlacedInstructionsNeverStop: RAM everywhere; Slot2 of `dup ret nop nop` to execute, and the fetch state. -/
theorem witness_well_placed :
    RamEverywhere (inSlot .slot2 0x68179E State.reset) ∧
    (∀ k, (inSlot .slot2 0x68179E State.reset).slot = .execute k →
      (decodeSlot k (inSlot .slot2 0x68179E State.reset).i).wellFormedAt k = true) ∧
    RamEverywhere State.reset ∧
    (∀ k, State.reset.slot = .execute k → (decodeSlot k State.reset.i).wellFormedAt k = true) := by
  refine ⟨fun _ => rfl, fun k h => ?_, fun _ => rfl, fun k h => by simp [State.reset] at h⟩
  obtain rfl : k = .slot2 := by simpa [inSlot, eq_comm] using h
  decide

end Sys2Proof.Tests
end

section
/-! The model's own fields along a step (`00_scope.md` R5, `10_state.md` R37). -/

namespace Sys2Proof.Machine

/-- Settles O57, by the four kinds of cycle: reset and interrupt entry write none of these fields but the count of draws,
a fetch at most counts a draw, and an instruction does what `ExecKeeps` says of any; `tick` then counts the cycle. -/
theorem stepKeepsParametersAndCountsCycles : Obligations.StepKeepsParametersAndCountsCycles := by
  intro s u h
  rcases step_cases h with ⟨-, rfl⟩ | ⟨-, -, -, rfl⟩ | ⟨-, -, -, v, hv, rfl⟩ | ⟨-, k, -, v, hv, rfl⟩
  case inl => simp
  case inr.inl => simp
  case inr.inr.inl =>
    obtain ⟨d, hd, hkeeps⟩ := fetchCycle_keeps hv
    rw [hkeeps]
    simp [hd]
  case inr.inr.inr =>
    have hkeeps := exec_keeps hv
    simp [hkeeps.cfg, hkeeps.cycle, hkeeps.inputs, hkeeps.draws, hkeeps.outputs]

end Sys2Proof.Machine
end

section
/-! Which slot is next, and what an instruction leaves in the carry of T (`10_state.md` R33, R37). -/

namespace Sys2Proof.Machine

/-! ### What the memory instructions make of T and of the slot counter -/

/-- A load that answers leaves a zero-extended word in T (`20_memory.md` R65). -/
theorem load_t {x : Addr} {s v : State} (h : load x s = .ok v) : ∃ w, v.t = zext25 w := by
  obtain ⟨w, s1, -, rfl⟩ := load_ok h
  exact ⟨w, rfl⟩

theorem load_slot {x : Addr} {s v : State} (h : load x s = .ok v) : v.slot = s.slot := by
  obtain ⟨d, -, hv⟩ := load_keeps h
  rw [hv]

/-- A store that answers pops S into T, and leaves the slot counter (`41_memory_access.md` R145). -/
theorem store_t_slot {x : Addr} {s v : State} (h : store x s = .ok v) : v.t = s.s ∧ v.slot = s.slot := by
  rcases store_keeps h with ⟨-, rfl⟩ | ⟨e, rfl⟩ | rfl <;> exact ⟨rfl, rfl⟩

/-- LD, LDP and LDI that go on: T is a zero-extended word, and the next slot follows. -/
theorem exec_load_t_slot {i : Instr} {s u : State} (hi : i = .ld ∨ i = .ldp ∨ i = .ldi) (h : exec i s = .next u) :
    (∃ w, u.t = zext25 w) ∧ u.slot = s.slot.next := by
  have answers : ∃ x v, load x s = .ok v ∧ u.t = v.t ∧ u.slot = v.slot.next := by
    rcases hi with rfl | rfl | rfl <;> simp only [exec_memory] at h <;> obtain ⟨v, hv, rfl⟩ := finish_next h
    case inl => exact ⟨_, v, hv, rfl, rfl⟩
    case inr.inl | inr.inr =>
      obtain ⟨w, hw, rfl⟩ := map_ok hv
      exact ⟨_, w, hw, rfl, rfl⟩
  obtain ⟨x, v, hv, ht, hs⟩ := answers
  exact ⟨ht ▸ load_t hv, by rw [hs, load_slot hv]⟩

/-- ST and STP that go on: T is the old S, and the next slot follows. -/
theorem exec_store_t_slot {i : Instr} {s u : State} (hi : i = .st ∨ i = .stp) (h : exec i s = .next u) :
    u.t = s.s ∧ u.slot = s.slot.next := by
  rcases hi with rfl | rfl <;> simp only [exec_memory] at h <;> obtain ⟨v, hv, rfl⟩ := finish_next h
  case inl =>
    obtain ⟨ht, hs⟩ := store_t_slot hv
    exact ⟨ht, congrArg Sequencer.next hs⟩
  case inr =>
    obtain ⟨w, hw, rfl⟩ := map_ok hv
    obtain ⟨ht, hs⟩ := store_t_slot hw
    exact ⟨ht, congrArg Sequencer.next hs⟩

/-! ### The next slot -/

/-- A transfer instruction that goes on stands in Slot1 (`30_encoding.md` R97). -/
theorem slot1_of_exec_transfer {i : Instr} {s u : State} (hi : i.isTransfer = true) (h : exec i s = .next u) :
    s.slot = .execute .slot1 := by
  cases i
  case jump | jz | jnc | call =>
    simp only [exec, execJump, execJz, execJnc, execCall] at h
    exact (inSlot1_next h).1
  all_goals cases hi

/-- Of an instruction that goes on, `Instr.endsWord` says what follows: the fetch state, or the next slot (R37). -/
theorem exec_slot {i : Instr} {s u : State} (h : exec i s = .next u) :
    u.slot = if i.endsWord then .fetch else s.slot.next := by
  cases i
  case ld | ldp | ldi => exact (exec_load_t_slot (by simp) h).2
  case st | stp => exact (exec_store_t_slot (by simp) h).2
  case jump | jz | jnc | call =>
    simp only [exec_transfer_slot1 (slot1_of_exec_transfer rfl h), Host.Outcome.next.injEq] at h
    subst h
    rfl
  case reserved05 | reserved06 | reserved07 | reserved08 | reserved0C | reserved0E | reservedUser => cases h
  all_goals
    simp only [exec_register_alu, Host.Outcome.next.injEq] at h
    subst h
    rfl

/-- Settles O41: `exec_slot` says what follows any instruction; the rest is the order of the slots (`Sequencer.next`). -/
theorem nextSlotFollowsTheWord : Obligations.NextSlotFollowsTheWord := by
  intro i k s u hk h
  rw [exec_slot h, hk]
  cases k <;> cases i <;> rfl

/-! ### The carry of each result of the ALU -/

@[simp] theorem carry_comResult (t : Reg) : carry (comResult t) = carry t := carry_withCarry _ _

@[simp] theorem carry_xorResult (s t : Reg) : carry (xorResult s t) = carry t := carry_withCarry _ _

@[simp] theorem carry_andResult (s t : Reg) : carry (andResult s t) = carry t := carry_withCarry _ _

@[simp] theorem carry_mulT (a s t : Reg) : carry (mulT a s t) = carry t := carry_withCarry _ _

@[simp] theorem carry_shrResult (pin : Bool) (t : Reg) : carry (shrResult pin t) = pin := by
  rw [carry, shrResult, BitVec.getLsbD_cons, if_pos rfl]

/-- A datum shifted left moves its bit 23 into the carry. -/
theorem carry_concat (d : Word) (b : Bool) : carry (BitVec.concat d b) = d.getLsbD 23 := by
  rw [carry, BitVec.getLsbD_concat, if_neg (by decide)]

@[simp] theorem carry_shlResult (t : Reg) : carry (shlResult t) = t.getLsbD 23 := by
  simp only [shlResult, carry_concat, getLsbD_datum, Nat.reduceLT, decide_true, Bool.true_and]

/-- The adder carries out exactly when the sum of the data needs a 25th bit (`42_alu.md` R168). -/
theorem carry_sum25_iff (s t : Reg) :
    carry (sum25 s t) = true ↔ 2 ^ 24 ≤ s.toNat % 2 ^ 24 + t.toNat % 2 ^ 24 := by
  rw [carry_iff, sum25_toNat, datum_toNat, datum_toNat]

theorem datum_sum25 (s t : Reg) : datum (sum25 s t) = BitVec.ofNat 24 (s.toNat + t.toNat) := by
  apply BitVec.eq_of_toNat_eq
  simp only [datum_toNat, sum25_toNat, BitVec.toNat_ofNat]
  omega

/-- DIV shifts into the carry the bit 23 of the sum where the addition carries, else that of T (R166, D13). -/
theorem carry_divT (a s t : Reg) :
    carry (divT a s t) =
      if 2 ^ 24 ≤ s.toNat % 2 ^ 24 + t.toNat % 2 ^ 24 then (BitVec.ofNat 24 (s.toNat + t.toNat)).getLsbD 23
      else t.getLsbD 23 := by
  simp only [divT, carry_concat, divSelect, carry_sum25_iff, datum_sum25]
  split
  · rfl
  · simp only [getLsbD_datum, Nat.reduceLT, decide_true, Bool.true_and]

/-- Settles O45, by instruction: loads and stores by what they leave in T, a transfer by whether it pops, the others
by the carry of their result. -/
theorem carryAfterEachInstruction : Obligations.CarryAfterEachInstruction := by
  intro i s u h
  cases i
  case ld | ldp | ldi =>
    obtain ⟨w, ht⟩ := (exec_load_t_slot (by simp) h).1
    rw [ht, carry_zext25]
  case st | stp => exact congrArg carry (exec_store_t_slot (by simp) h).1
  case jump | call =>
    simp only [exec_transfer_slot1 (slot1_of_exec_transfer rfl h), Host.Outcome.next.injEq] at h
    subst h
    rfl
  case jz | jnc =>
    simp only [exec_transfer_slot1 (slot1_of_exec_transfer rfl h), Host.Outcome.next.injEq] at h
    split at h <;> subst h <;> rfl
  case reserved05 | reserved06 | reserved07 | reserved08 | reserved0C | reserved0E | reservedUser => rfl
  case add =>
    simp only [exec_register_alu, Host.Outcome.next.injEq] at h
    subst h
    rw [Bool.eq_iff_iff, decide_eq_true_iff]
    exact carry_sum25_iff s.s s.t
  case div =>
    simp only [exec_register_alu, Host.Outcome.next.injEq] at h
    subst h
    exact carry_divT s.a s.s s.t
  all_goals
    simp only [exec_register_alu, Host.Outcome.next.injEq] at h
    subst h
    simp [State.s]

end Sys2Proof.Machine
end

section
/-! The cycle (`10_state.md` R36, R37): what it executes and fetches, and which registers only some cycles write. -/

namespace Sys2Proof.Machine

/-- Settles O50, by the four kinds of cycle: reset sets IEN, interrupt entry clears it, a fetch keeps it, and of the
instructions only RET changes it (`ExecKeeps.ien`). -/
theorem ienChangesOnlyByEntryRetAndReset : Obligations.IenChangesOnlyByEntryRetAndReset := by
  intro s u h hne
  rcases step_cases h with ⟨hc, rfl⟩ | ⟨hc, hs, hd, rfl⟩ | ⟨-, -, -, v, hv, rfl⟩ | ⟨-, k, hk, v, hv, rfl⟩
  case inl => exact .inr ⟨rfl, .inl hc⟩
  case inr.inl =>
    have hd : s.ien = true ∧ sampleInt s ≠ 0 := by simpa [interruptDue] using hd
    exact .inl ⟨rfl, hc, hs, hd.2, rfl⟩
  case inr.inr.inl =>
    obtain ⟨d, -, hkeeps⟩ := fetchCycle_keeps hv
    rw [hkeeps] at hne
    exact absurd rfl hne
  case inr.inr.inr =>
    obtain ⟨hret, hset⟩ := (exec_keeps hv).ien hne
    exact .inr ⟨hset, .inr ⟨k, hk, hret⟩⟩

/-- Settles O56, by the three kinds of cycle outside reset: interrupt entry writes the return stack, a fetch writes I,
and `ExecKeeps` names the instructions that write UART_OUT, A and the return stack. -/
theorem registersHaveOnlyTheirWriters : Obligations.RegistersHaveOnlyTheirWriters := by
  intro s u h hclr
  rcases step_cases h with ⟨hc, -⟩ | ⟨-, hs, hd, rfl⟩ | ⟨-, hs, hd, v, hv, rfl⟩ | ⟨-, k, hk, v, hv, rfl⟩
  case inl => simp [hclr] at hc
  case inr.inl => simp [hs, hd]
  case inr.inr.inl =>
    obtain ⟨d, -, hkeeps⟩ := fetchCycle_keeps hv
    rw [hkeeps]
    simp [hs, hd]
  case inr.inr.inr =>
    have hkeeps := exec_keeps hv
    exact ⟨fun hne => absurd hkeeps.latch hne, fun hne => ⟨k, hk, hkeeps.uartOut hne⟩,
      fun hne => ⟨k, hk, hkeeps.a hne⟩, fun hne => .inr ⟨k, hk, hkeeps.r hne⟩⟩

/-! ### What a cycle executes -/

/-- A word that `withFetchWord` places runs in a cycle with `clr` inactive. -/
theorem sampleClr_loadFetched (w : Word) (s : State) : sampleClr (loadFetched w s) = false := by
  unfold sampleClr
  rw [loadFetched_inputs]
  cases s.inputs <;> rfl

/-- A table word is a 24-bit word, and it stands for the instruction in its Slot1 (`30_encoding.md` R90, R91). -/
theorem decodeTableWord_eq_some {w : Nat} {i : Instr} (h : decodeTableWord 24 w = some i) :
    decodeSlot .slot1 (BitVec.ofNat 24 w) = i := by
  unfold decodeTableWord decodeNat at h
  split at h
  · simpa [Except.toOption] using h
  · cases h

/-- Settles O39: `step_execute` at the slot, and at Slot1 of the placed word. -/
theorem stepExecutesTheInstructionInTheSlot : Obligations.StepExecutesTheInstructionInTheSlot := by
  refine ⟨fun s k hc hs => step_execute hc hs, fun s w i h => ?_⟩
  rw [← decodeTableWord_eq_some h]
  exact step_execute (sampleClr_loadFetched _ s) rfl

/-! ### The fetch -/

theorem slot0Cycle_fetches {s : State} (h : interruptDue s = false) : slot0Cycle s = fetchCycle s := by
  simp [slot0Cycle, h]

/-- Settles O40: with no interrupt due the cycle is the fetch, and what stands at P says what that reads. -/
theorem fetchLoadsIAndIncrementsP : Obligations.FetchLoadsIAndIncrementsP := by
  intro s hc hs hd
  have hstep : step s = endCycle (fetchCycle s) := by rw [step_fetch hc hs, slot0Cycle_fetches hd]
  refine ⟨fun hk => ?_, fun hk => ?_⟩
  · rw [fetchCycle_readable hk] at hstep
    refine ⟨_, hstep, ?_, increment_toNat s.p, rfl, rfl, rfl, ?_⟩
    · rw [← datum_toNat s.p]
      rfl
    · intro f hf
      cases f <;> simp_all [Field.same]
  · rw [fetchCycle_device hk] at hstep
    refine ⟨_, hstep, increment_toNat s.p, rfl, rfl, rfl, rfl, ?_⟩
    intro f hf
    cases f <;> simp_all [Field.same]

/-! ### Reset -/

/-- Settles O51: the fields of `State.reset`, each cell of a stack being a cell of a replicated 0. -/
theorem resetClearsRegistersAndStacks : Obligations.ResetClearsRegistersAndStacks :=
  ⟨rfl, fun _ h => Vector.getElem_replicate h, rfl, fun _ h => Vector.getElem_replicate h, rfl, rfl, rfl, rfl, rfl⟩

/-- Settles O53: memory lists nothing after reset. -/
theorem resetMemoryIsCanonical : Obligations.ResetMemoryIsCanonical := reset_mem_wf

end Sys2Proof.Machine
end

section
/-! Memory (`20_memory.md`): what a cycle does to it, and what the loads, the stores and the fetch meet at a device, where
writes are ignored, and where nothing answers. -/

namespace Sys2Proof.Machine

/-! ### What a cycle does to memory -/

/-- A cycle leaves memory as it is, or it executes ST or STP and writes T[23:0] to RAM at the address in A (R61). -/
theorem step_mem {s u : State} (h : step s = .next u) :
    u.mem = s.mem ∨ ∃ k, s.slot = .execute k ∧ (decodeSlot k s.i = .st ∨ decodeSlot k s.i = .stp) ∧
      kindAt s (busAddr s.a) = .ram ∧ u.mem = Memory.write s.mem (busAddr s.a).toNat (datum s.t) := by
  rcases step_cases h with ⟨-, rfl⟩ | ⟨-, -, -, rfl⟩ | ⟨-, -, -, v, hv, rfl⟩ | ⟨-, k, hk, v, hv, rfl⟩
  case inl | inr.inl => exact .inl rfl
  case inr.inr.inl =>
    obtain ⟨d, -, hkeeps⟩ := fetchCycle_keeps hv
    rw [hkeeps]
    exact .inl rfl
  case inr.inr.inr =>
    by_cases hmem : v.mem = s.mem
    · exact .inl hmem
    · exact .inr ⟨k, hk, (exec_keeps hv).mem hmem⟩

/-- Settles O54: of the two things a cycle can do to memory (`step_mem`), a write to a bus address keeps the canonical
form by `Memory.wf_write`. -/
theorem stepKeepsMemoryCanonical : Obligations.StepKeepsMemoryCanonical := by
  intro s u hwf h
  rcases step_mem h with hmem | ⟨-, -, -, -, hmem⟩ <;> rw [State.Inv, hmem]
  · exact hwf
  · exact Memory.wf_write hwf (busAddr s.a).isLt (datum s.t)

/-- Settles O55: where an address reads differently, the cycle was the write of `step_mem`, and no address but the
written one reads differently after it. -/
theorem memoryChangesOnlyByStores : Obligations.MemoryChangesOnlyByStores := by
  intro s u x h hne
  rcases step_mem h with hmem | ⟨k, hk, hstore, hram, hmem⟩ <;> rw [hmem] at hne
  · exact absurd rfl hne
  · have hx : x = (busAddr s.a).toNat := by
      by_contra hx
      exact hne (Memory.read_write_other _ _ _ hx)
    refine ⟨k, hk, hstore, hx, hram, ?_⟩
    rw [hmem, hx, Memory.read_write_same]

/-! ### Loads and stores over the bus -/

/-- What LD, LDP and LDI do after the load: LDP steps A, LDI steps P (`41_memory_access.md` R145). -/
def afterLoad (i : Instr) (s : State) : State :=
  { s with
    a := if i = .ldp then increment s.a else s.a
    p := if i = .ldi then increment s.p else s.p }

/-- What ST and STP do after the store: STP steps A (`41_memory_access.md` R145). -/
def afterStore (i : Instr) (s : State) : State := { s with a := if i = .stp then increment s.a else s.a }

/-- LD, LDP and LDI are a load at the address they put on the bus, and what comes after it. -/
theorem exec_load {s : State} {i : Instr} {x : Addr} (hi : i ∈ [Instr.ld, .ldp, .ldi])
    (hx : dataAddress i s = some x) : exec i s = finish ((load x s).map (afterLoad i)) := by
  simp only [List.mem_cons, List.not_mem_nil, or_false] at hi
  rcases hi with rfl | rfl | rfl <;> cases hx <;> simp only [exec_memory]
  case inl => cases load (busAddr s.a) s <;> rfl
  case inr.inl | inr.inr => rfl

/-- ST and STP are a store at the address in A, and what comes after it. -/
theorem exec_store {s : State} {i : Instr} (hi : i ∈ [Instr.st, .stp]) :
    exec i s = finish ((store (busAddr s.a) s).map (afterStore i)) := by
  simp only [List.mem_cons, List.not_mem_nil, or_false] at hi
  rcases hi with rfl | rfl <;> simp only [exec_memory]
  case inl => cases store (busAddr s.a) s <;> rfl
  case inr => rfl

theorem exec_load_next {s v : State} {i : Instr} {x : Addr} (hi : i ∈ [Instr.ld, .ldp, .ldi])
    (hx : dataAddress i s = some x) (h : load x s = .ok v) : exec i s = .next (advance (afterLoad i v)) := by
  rw [exec_load hi hx, h]
  rfl

theorem exec_load_fault {s : State} {i : Instr} {x : Addr} {f : Fault} (hi : i ∈ [Instr.ld, .ldp, .ldi])
    (hx : dataAddress i s = some x) (h : load x s = .error f) : exec i s = .fault f := by
  rw [exec_load hi hx, h]
  rfl

theorem exec_store_next {s v : State} {i : Instr} (hi : i ∈ [Instr.st, .stp]) (h : store (busAddr s.a) s = .ok v) :
    exec i s = .next (advance (afterStore i v)) := by
  rw [exec_store hi, h]
  rfl

theorem exec_store_fault {s : State} {i : Instr} {f : Fault} (hi : i ∈ [Instr.st, .stp])
    (h : store (busAddr s.a) s = .error f) : exec i s = .fault f := by
  rw [exec_store hi, h]
  rfl

/-- A register that only some instructions step, as a number (`10_state.md` R27, R28, D15). -/
theorem toNat_ite_increment (c : Prop) [Decidable c] (x : Reg) :
    (if c then increment x else x).toNat = if c then (x.toNat + 1) % 2 ^ 25 else x.toNat := by
  rw [apply_ite BitVec.toNat, increment_toNat]

/-- A push on the cells is a push of the data stack (`10_state.md` R24). -/
theorem dataPushed_of_ds {v : Reg} {s u : State} (h : u.ds = pushCell (n := 15) s.ds v) : DataPushed v s u := by
  unfold DataPushed
  rw [h]
  exact ⟨pushCell_zero (n := 15) s.ds v, pushCell_succ (n := 15) s.ds v⟩

/-- A pop of the cells is a pop of the data stack, whatever enters the deepest (`10_state.md` R24). -/
theorem dataPopped_of_ds {fill : Reg} {s u : State} (h : u.ds = popCell (n := 15) s.ds fill) : DataPopped s u := by
  unfold DataPopped
  rw [h]
  exact popCell_get (n := 15) s.ds fill

/-! ### Devices, ignored writes, no answer -/

/-- Settles O17: the load is `load_device`, the steps of A and P are those of `afterLoad`. -/
theorem deviceReadsGiveAFreeWord : Obligations.DeviceReadsGiveAFreeWord := by
  intro s i x hi hx hk
  refine ⟨_, exec_load_next hi hx (load_device hk), carry_zext25 _, dataPushed_of_ds rfl, toNat_ite_increment _ _,
    toNat_ite_increment _ _, rfl, fun f hf => ?_⟩
  cases f <;> simp_all [Field.same, afterLoad]

/-- Settles O18: the store is `store_device`, the step of A is that of `afterStore`. -/
theorem deviceWritesAreOutputEvents : Obligations.DeviceWritesAreOutputEvents := by
  intro s i hi hk
  refine ⟨_, exec_store_next hi (store_device hk), rfl, rfl, dataPopped_of_ds rfl, toNat_ite_increment _ _, rfl,
    fun f hf => ?_⟩
  cases f <;> simp_all [Field.same, afterStore]

/-- Settles O19: the store is `store_ignored`, the step of A is that of `afterStore`. -/
theorem ignoredWritesOnlyPop : Obligations.IgnoredWritesOnlyPop := by
  intro s i hi hk
  refine ⟨_, exec_store_next hi (store_ignored hk), rfl, dataPopped_of_ds rfl, toNat_ite_increment _ _, rfl,
    fun f hf => ?_⟩
  cases f <;> simp_all [Field.same, afterStore]

/-- A fetch where nothing is. -/
theorem fetchCycle_unpopulated {s : State} {b : Bool} (h : kindAt s (busAddr s.p) = .unpopulated b) :
    fetchCycle s = .fault (.unpopulated (busAddr s.p)) := by
  simp [fetchCycle, busRead, h]

/-- Settles O20: each of the four accesses stops (`load_unpopulated`, `store_stops`, `fetchCycle_unpopulated`), and the
instruction or the cycle with it. -/
theorem accessesWithoutAnAnswerStop : Obligations.AccessesWithoutAnAnswerStop := by
  refine ⟨fun s i x b hi hx hk => exec_load_fault hi hx (load_unpopulated hk),
    fun s i hi hk => exec_store_fault hi (store_stops.2 hk),
    fun s i hi hk => exec_store_fault hi (store_stops.1 hk), fun s b hc hs hd hk => ?_⟩
  rw [step_fetch hc hs, slot0Cycle_fetches hd, fetchCycle_unpopulated hk]
  rfl

/-! ### A store seen by a load -/

theorem execAll_pair {i j : Instr} {s v u : State} (hi : exec i s = .next v) (hj : exec j v = .next u) :
    execAll [i, j] s = .next u := by
  simp only [execAll, andThen, hi, hj]

/-- Settles O21: ST leaves P and the map of the platform, so LDI reads RAM, at the address ST has just written. -/
theorem storedLiteralIsSeenByLdi : Obligations.StoredLiteralIsSeenByLdi := by
  intro s hram haddr
  have hread : kindAt s (busAddr s.p) = .ram := haddr ▸ hram
  refine ⟨_, execAll_pair (exec_store_next (by simp) (store_ram hram))
    (exec_load_next (by simp) rfl (load_readable (.inl hread))), (datum_zext25 _).trans ?_, carry_zext25 _⟩
  change Memory.read (Memory.write s.mem (busAddr s.a).toNat (datum s.t)) (busAddr s.p).toNat = datum s.t
  rw [haddr, Memory.read_write_same]

end Sys2Proof.Machine
end

section
/-! The encoding (`30_encoding.md`): the fields of a word with one code replaced, and the round trips of R91, R92 and R95. -/

namespace Sys2Proof.Machine

/-! ### The bits of a word and of its fields -/

/-- Bit n of a word with the code of a slot replaced: a bit of the code inside the slot, the old bit outside (R91). -/
theorem getLsbD_putCode (k : Slot) (c : Code) (w : Word) {n : Nat} (hn : n < 24) :
    (putCode k c w).getLsbD n =
      if k.shift ≤ n ∧ n < k.shift + 6 then c.getLsbD (n - k.shift) else w.getLsbD n := by
  have hmask (m : Nat) : (0x3F : Word).getLsbD m = decide (m < 6) := by
    rw [show (0x3F : Word) = (BitVec.allOnes 6).setWidth 24 from rfl, BitVec.getLsbD_setWidth, BitVec.getLsbD_allOnes,
      ← Bool.decide_and, decide_eq_decide]
    omega
  simp only [putCode, BitVec.getLsbD_or, BitVec.getLsbD_and, BitVec.getLsbD_not, BitVec.getLsbD_shiftLeft,
    BitVec.getLsbD_setWidth, hmask, hn]
  split
  next h =>
    obtain ⟨hlow, hhigh⟩ := h
    simp [show ¬ n < k.shift by omega, show n - k.shift < 6 by omega, show n - k.shift < 24 by omega]
  next h =>
    rcases Nat.lt_or_ge n k.shift with hlow | hlow
    · simp [hlow]
    · have hhigh : 6 ≤ n - k.shift := by omega
      simp [BitVec.getLsbD_of_ge c _ hhigh, Nat.not_lt.mpr hhigh]

theorem getLsbD_slotField (k : Slot) (w : Word) (n : Nat) :
    (slotField k w).getLsbD n = (decide (n < 6) && w.getLsbD (k.shift + n)) :=
  BitVec.getLsbD_extractLsb' _ _ _ _

theorem Slot.shift_le (k : Slot) : k.shift ≤ 18 := by cases k <;> decide

/-- Two slots are six bits or more apart. -/
theorem Slot.shift_apart {j k : Slot} (h : j ≠ k) : j.shift + 6 ≤ k.shift ∨ k.shift + 6 ≤ j.shift := by
  cases j <;> cases k <;> simp_all [Slot.shift]

/-! ### The fields of a word with one code replaced -/

@[simp] theorem slotField_putCode_same (k : Slot) (c : Code) (w : Word) : slotField k (putCode k c w) = c := by
  apply BitVec.eq_of_getLsbD_eq
  intro n hn
  have hk := Slot.shift_le k
  rw [getLsbD_slotField, getLsbD_putCode k c w (by omega), if_pos (by omega)]
  simp [hn]

theorem slotField_putCode_other {j k : Slot} (c : Code) (w : Word) (h : j ≠ k) :
    slotField j (putCode k c w) = slotField j w := by
  apply BitVec.eq_of_getLsbD_eq
  intro n hn
  have hj := Slot.shift_le j
  have hjk := Slot.shift_apart h
  rw [getLsbD_slotField, getLsbD_slotField, getLsbD_putCode k c w (by omega), if_neg (by omega)]

/-- Slot1 stands above the address field (R92). -/
theorem transferField_putCode_slot1 (c : Code) (w : Word) :
    transferField (putCode .slot1 c w) = transferField w := by
  apply BitVec.eq_of_getLsbD_eq
  intro n hn
  have hshift : Slot.slot1.shift = 18 := rfl
  rw [transferField, transferField, BitVec.getLsbD_extractLsb', BitVec.getLsbD_extractLsb',
    getLsbD_putCode _ c w (by omega), if_neg (by omega)]

/-- A slot that already holds the code: nothing is replaced. -/
theorem putCode_slotField (k : Slot) (w : Word) : putCode k (slotField k w) w = w := by
  apply BitVec.eq_of_getLsbD_eq
  intro n hn
  rw [getLsbD_putCode k _ w hn]
  split
  next h =>
    obtain ⟨hlow, hhigh⟩ := h
    rw [getLsbD_slotField, Nat.add_sub_cancel' hlow, decide_eq_true (by omega), Bool.true_and]
  next => rfl

@[simp] theorem transferField_append (c : Code) (a : PageOffset) : transferField (c ++ a) = a :=
  BitVec.extractLsb'_append_eq_right

/-- A word is its Slot1 code above its address field (R92). -/
theorem slot1_append_transferField (w : Word) : (w.extractLsb' 18 6 ++ transferField w : Word) = w := by
  rw [transferField, BitVec.extractLsb'_append_extractLsb'_eq_extractLsb' (by rfl)]
  exact BitVec.extractLsb'_eq_self

/-! ### The map of the codes -/

/-- The instructions with an address field are the transfer instructions (R92). -/
theorem Instr.isTransfer_eq (i : Instr) : i.isTransfer = i.address.isSome := by cases i <;> rfl

/-- The map of the 64 codes reads back the code of any instruction (R95). -/
theorem decodeCode_code (i : Instr) : Laws.CodeMap.Statement i := by
  cases i
  case jump x => exact Laws.CodeMap.jump x
  case jz x => exact Laws.CodeMap.jz x
  case jnc x => exact Laws.CodeMap.jnc x
  case call x => exact Laws.CodeMap.call x
  case reservedUser low => exact Laws.CodeMap.reservedUser low
  all_goals exact fun _ _ => rfl

/-- The address of a decoded transfer instruction is the address field it was decoded with (R92). -/
theorem address_decodeCode {c : Code} {a b : PageOffset} (h : (decodeCode c a).address = some b) : b = a := by
  unfold decodeCode at h
  split at h <;> simp_all [Instr.address]

/-! ### The round trips -/

/-- Settles O2: the slot holds the code just put there, and the address field is the instruction's own, if it has one; the
map of the codes then reads the instruction back (`decodeCode_code`). -/
theorem decodeGivesBackTheEncodedInstruction : Obligations.DecodeGivesBackTheEncodedInstruction := by
  intro k i rest hslot
  rw [Instr.isTransfer_eq] at hslot ⊢
  unfold encodeAt decodeSlot
  split
  next a ha =>
    obtain rfl : k = .slot1 := hslot (by simp [ha])
    refine ⟨?_, fun h => by simp [ha] at h⟩
    rw [slotField_putCode_same, transferField_putCode_slot1, transferField_append]
    exact decodeCode_code i a fun b hb => by simpa [ha] using hb
  next ha =>
    refine ⟨?_, fun _ j hj => slotField_putCode_other i.code rest hj⟩
    rw [slotField_putCode_same]
    exact decodeCode_code i _ fun b hb => by simp [ha] at hb

/-- Settles O3: the decoded instruction has the slot's code and, if any, the word's address field, so both are put back where
they stand. -/
theorem encodeGivesBackTheDecodedWord : Obligations.EncodeGivesBackTheDecodedWord := by
  intro k w hslot
  have hcode : (decodeSlot k w).code = slotField k w := code_decodeCode _ _
  rw [Instr.isTransfer_eq] at hslot
  unfold encodeAt
  split
  next a ha =>
    obtain rfl : k = .slot1 := hslot (by simp [ha])
    rw [address_decodeCode ha, slot1_append_transferField, hcode, putCode_slotField]
  next => rw [hcode, putCode_slotField]

end Sys2Proof.Machine
end

section
/-! The codes without a behaviour (`30_encoding.md` R96, R97), and words written out from the rules. -/

namespace Sys2Proof.Machine

/-- Settles O1, by running the decoder on each word. -/
theorem writtenWordsDecode : Obligations.WrittenWordsDecode :=
  ⟨rfl, rfl, rfl, rfl, rfl, rfl, ⟨rfl, rfl, rfl, rfl⟩, rfl, rfl, rfl⟩

/-- An instruction that is not implemented stops with its code, in every state (R96, D18). -/
theorem exec_not_implemented {i : Instr} (h : i.implemented = false) (s : State) :
    exec i s = .fault (.reservedCode i.code) := by
  cases i
  case reserved05 | reserved06 | reserved07 | reserved08 | reserved0C | reserved0E | reservedUser => rfl
  all_goals cases h

/-- The codes of the user row are 0x20 and the low five bits (R95). -/
theorem code_reservedUser (low : BitVec 5) : (Instr.reservedUser low).code = 0x20 + low.setWidth 6 := by
  revert low
  decide

/-- Settles O4, by `exec_not_implemented` at each reserved row. -/
theorem reservedInstructionsStop : Obligations.ReservedInstructionsStop := by
  intro s
  have stops {i : Instr} (h : i.implemented = false) := exec_not_implemented h s
  refine ⟨stops rfl, stops rfl, stops rfl, stops rfl, stops rfl, stops rfl, fun low => ?_⟩
  rw [← code_reservedUser]
  exact stops rfl

/-- Only the reserved codes stop as reserved codes, and each names itself. -/
theorem exec_reservedCode_iff {i : Instr} {s : State} {c : Code} :
    exec i s = .fault (.reservedCode c) ↔ c = i.code ∧ i.implemented = false := by
  constructor
  case mp =>
    intro h
    rcases exec_fault h with ⟨hi, hf⟩ | ⟨-, -, hf⟩ | ⟨x, -, ⟨-, hf⟩ | ⟨-, hf⟩⟩
    case inl =>
      cases hf
      exact ⟨rfl, hi⟩
    all_goals cases hf
  case mpr =>
    rintro ⟨rfl, hi⟩
    exact exec_not_implemented hi s

theorem endCycle_fault_iff {o : Result} {f : Fault} : endCycle o = .fault f ↔ o = .fault f := by
  cases o <;> simp [endCycle]

/-- Settles O5: the cycle stops as its instruction does (`exec_reservedCode_iff`), whose code is that of the slot
(`code_decodeCode`), and `decodeCode_reserved` lists the codes. -/
theorem reservedCodesStopWhenReached : Obligations.ReservedCodesStopWhenReached := by
  intro s k c hc hs
  rw [step_execute hc hs, endCycle_fault_iff, exec_reservedCode_iff, decodeSlot, code_decodeCode, decodeCode_reserved]
  exact and_congr_right fun h => by rw [h]

/-- A transfer instruction anywhere but in Slot1 stops (R97, D17). -/
theorem exec_transfer_outside_slot1 {i : Instr} {s : State} (hi : i.isTransfer = true) (h : s.slot ≠ .execute .slot1) :
    exec i s = .fault .transferOutsideSlot1 := by
  cases i
  case jump | jz | jnc | call => exact if_neg h
  all_goals cases hi

/-- Settles O6, by `exec_transfer_outside_slot1` at each of the four. -/
theorem transferOutsideSlot1Stops : Obligations.TransferOutsideSlot1Stops := by
  intro s a h
  have stops {i : Instr} (hi : i.isTransfer = true) := exec_transfer_outside_slot1 hi h
  exact ⟨stops rfl, stops rfl, stops rfl, stops rfl⟩

end Sys2Proof.Machine
end

section
/-! The cycles of a word (`30_encoding.md` R99): from Slot1 on, the reached instructions, one a cycle. -/

namespace Sys2Proof.Machine

/-! ### The instructions from a slot on -/

/-- From the slot counter `q` on, these are the instructions of the word `w` up to its end (`30_encoding.md` R91). -/
def StandsFrom (w : Word) : Sequencer → List Instr → Prop
  | q, [] => q = .fetch
  | q, i :: is => (∃ k, q = .execute k ∧ decodeSlot k w = i) ∧ StandsFrom w q.next is

theorem standsFrom_slot1 (w : Word) :
    StandsFrom w (.execute .slot1)
      [decodeSlot .slot1 w, decodeSlot .slot2 w, decodeSlot .slot3 w, decodeSlot .slot4 w] :=
  ⟨⟨_, rfl, rfl⟩, ⟨_, rfl, rfl⟩, ⟨_, rfl, rfl⟩, ⟨_, rfl, rfl⟩, rfl⟩

/-! ### Cycles without a reset -/

theorem sampleClr_of_noReset {n : Nat} {s : State} (h : NoReset (n + 1) s) : sampleClr s = false := by
  unfold sampleClr
  split
  next pins rest hin => exact h pins (by simp [hin])
  next => rfl

theorem noReset_tick {n : Nat} {s v : State} (h : NoReset (n + 1) s) (hv : v.inputs = s.inputs) :
    NoReset n (tick v) := by
  intro pins hp
  refine h pins ?_
  rw [tick_inputs, hv] at hp
  cases hin : s.inputs with
  | nil => simp [hin] at hp
  | cons x xs =>
    rw [hin, List.tail_cons] at hp
    rw [List.take_succ_cons]
    exact List.mem_cons_of_mem _ hp

/-! ### Runs -/

theorem andThen_congr {o : Result} {f g : State → Result} (h : ∀ s, o = .next s → f s = g s) :
    andThen o f = andThen o g := by
  cases o with
  | next s => exact h s rfl
  | fault e => rfl
  | refused e => rfl

theorem andThen_next {o : Result} {f : State → Result} {u : State} (h : andThen o f = .next u) :
    ∃ s, o = .next s ∧ f s = .next u := by
  cases o with
  | next s => exact ⟨s, rfl, h⟩
  | fault e => cases h
  | refused e => cases h

/-- A run that goes on, taken apart at its first instruction. -/
theorem execCycles_cons_next {i : Instr} {is : List Instr} {s u : State} (h : execCycles (i :: is) s = .next u) :
    ∃ v, exec i s = .next v ∧ execCycles is (tick v) = .next u := by
  obtain ⟨_, hcycle, hrest⟩ := andThen_next h
  obtain ⟨v, hv, rfl⟩ := endCycle_next hcycle
  exact ⟨v, hv, hrest⟩

/-- After an instruction that does not end the word, the rest of the word stands from the next slot on. -/
theorem standsFrom_tick {i : Instr} {is : List Instr} {s v : State} (hend : ¬ i.endsWord = true)
    (hrest : StandsFrom s.i s.slot.next is) (hv : exec i s = .next v) : StandsFrom (tick v).i (tick v).slot is := by
  rwa [tick_i, tick_slot, (exec_keeps hv).latch, exec_slot hv, if_neg hend]

/-- From a slot on, the cycles are the instructions of the word up to its end: each cycle decodes the slot that its
instruction stands in, and the latch stays. -/
theorem stepTimes_untilWordEnd {is : List Instr} {s : State} (hin : StandsFrom s.i s.slot is)
    (hclr : NoReset is.length s) :
    stepTimes (untilWordEnd is).length s = execCycles (untilWordEnd is) s := by
  induction is generalizing s with
  | nil => rfl
  | cons i is ih =>
    obtain ⟨⟨k, hk, rfl⟩, hrest⟩ := hin
    have hstep := step_execute (sampleClr_of_noReset hclr) hk
    unfold untilWordEnd
    split
    next => simp only [List.length_singleton, stepTimes, execCycles, hstep]
    next hend =>
      rw [List.length_cons, stepTimes, execCycles, hstep]
      refine andThen_congr fun v' hv' => ?_
      obtain ⟨v, hv, rfl⟩ := endCycle_next hv'
      exact ih (standsFrom_tick hend hrest hv) (noReset_tick hclr (exec_keeps hv).inputs)

/-- The reached instructions from a slot on end in the fetch state, with I as it was. -/
theorem execCycles_untilWordEnd {is : List Instr} {s u : State} (hin : StandsFrom s.i s.slot is)
    (h : execCycles (untilWordEnd is) s = .next u) : u.slot = .fetch ∧ u.i = s.i := by
  induction is generalizing s with
  | nil =>
    cases h
    exact ⟨hin, rfl⟩
  | cons i is ih =>
    obtain ⟨-, hrest⟩ := hin
    unfold untilWordEnd at h
    split at h
    next hend =>
      obtain ⟨v, hv, hnil⟩ := execCycles_cons_next h
      cases hnil
      exact ⟨by rw [tick_slot, exec_slot hv, if_pos hend], (exec_keeps hv).latch⟩
    next hend =>
      obtain ⟨v, hv, hrun⟩ := execCycles_cons_next h
      obtain ⟨hfetch, hi⟩ := ih (standsFrom_tick hend hrest hv) hrun
      exact ⟨hfetch, hi.trans (exec_keeps hv).latch⟩

/-- From Slot1 on, the cycles of a word are its reached instructions (R99). -/
theorem stepTimes_reached {s : State} (hs : s.slot = .execute .slot1) (hclr : NoReset 4 s) :
    stepTimes (reached s.i).length s = execCycles (reached s.i) s :=
  stepTimes_untilWordEnd (hs ▸ standsFrom_slot1 s.i) hclr

/-- Settles O42: the four slots of I stand from Slot1 on, so `stepTimes_reached` gives the run, and
`execCycles_untilWordEnd` where it ends. -/
theorem wordRunsItsReachedInstructions : Obligations.WordRunsItsReachedInstructions := by
  intro s hs hclr
  have hruns := stepTimes_reached hs hclr
  exact ⟨hruns, fun u hu => execCycles_untilWordEnd (hs ▸ standsFrom_slot1 s.i) (hruns ▸ hu)⟩

/-! ### P along a word -/

/-- A load that answers leaves P. -/
theorem load_p {x : Addr} {s v : State} (h : load x s = .ok v) : v.p = s.p := by
  obtain ⟨d, -, hv⟩ := load_keeps h
  rw [hv]

theorem store_p {x : Addr} {s v : State} (h : store x s = .ok v) : v.p = s.p := by
  rcases store_keeps h with ⟨-, rfl⟩ | ⟨e, rfl⟩ | rfl <;> rfl

/-- Of the instructions but the transfer instructions and RET, only LDI moves P, by one (`10_state.md` R28). -/
theorem exec_p {i : Instr} {s u : State} (hi : i.isTransfer = false ∧ i ≠ .ret) (h : exec i s = .next u) :
    u.p = if i = .ldi then increment s.p else s.p := by
  obtain ⟨htransfer, hret⟩ := hi
  cases i
  case ld | ldp | ldi =>
    rw [exec_load (by simp) rfl] at h
    obtain ⟨_, hfin, rfl⟩ := finish_next h
    obtain ⟨v, hv, rfl⟩ := map_ok hfin
    simp [afterLoad, load_p hv]
  case st | stp =>
    rw [exec_store (by simp)] at h
    obtain ⟨_, hfin, rfl⟩ := finish_next h
    obtain ⟨v, hv, rfl⟩ := map_ok hfin
    exact (store_p hv : v.p = s.p)
  case jump | jz | jnc | call => cases htransfer
  case ret => exact absurd rfl hret
  case reserved05 | reserved06 | reserved07 | reserved08 | reserved0C | reserved0E | reservedUser => cases h
  all_goals
    simp only [exec_register_alu, Host.Outcome.next.injEq] at h
    subst h
    rfl

/-- Without transfer instructions and RET, P moves by one for each LDI executed, modulo 2^25 (D15). -/
theorem execCycles_p {is : List Instr} {s u : State} (hmove : ∀ i ∈ is, i.isTransfer = false ∧ i ≠ .ret)
    (h : execCycles is s = .next u) : u.p.toNat = (s.p.toNat + is.count .ldi) % 2 ^ 25 := by
  induction is generalizing s with
  | nil =>
    cases h
    exact (Nat.mod_eq_of_lt (BitVec.isLt _)).symm
  | cons i is ih =>
    obtain ⟨v, hv, hrun⟩ := execCycles_cons_next h
    obtain ⟨hi, his⟩ := List.forall_mem_cons.mp hmove
    have hp := congrArg BitVec.toNat (exec_p hi hv)
    rw [toNat_ite_increment] at hp
    rw [ih his hrun, tick_p, hp, List.count_cons]
    simp only [beq_iff_eq]
    split <;> omega

/-- Settles O43: the steps are the reached instructions (`stepTimes_reached`), along which `execCycles_p` follows P. -/
theorem reachedLdisStepPOverTheirLiterals : Obligations.ReachedLdisStepPOverTheirLiterals := by
  intro s u hs hclr hmove h
  exact execCycles_p hmove (stepTimes_reached hs hclr ▸ h)

end Sys2Proof.Machine
end

section
/-! The transfer instructions (`40_transfer.md`): what each does to P and the stacks, and what a RET gives back. -/

namespace Sys2Proof.Machine

/-! ### The return stack and frames -/

/-- The return stack after a push on its cells (`10_state.md` R26). -/
theorem returnPushed_of_rs {v : Reg} {s u : State} (hr : u.r = v) (hrs : u.rs = pushCell (n := 31) s.rs s.r) :
    ReturnPushed v s u := by
  unfold ReturnPushed
  rw [hrs]
  exact ⟨hr, pushCell_zero (n := 31) s.rs s.r, pushCell_succ (n := 31) s.rs s.r⟩

/-- The return stack after a pop of its cells, whatever enters the deepest (`10_state.md` R26). -/
theorem returnPopped_of_rs {fill : Reg} {s u : State} (hr : u.r = s.rs[0]) (hrs : u.rs = popCell (n := 31) s.rs fill) :
    ReturnPopped s u := by
  unfold ReturnPopped
  rw [hrs]
  exact ⟨hr, popCell_get (n := 31) s.rs fill⟩

/-- A pop after a push gives back R and every cell but the deepest, which the push lost (D5, D6). -/
theorem ReturnPopped.undoes_push {v : Reg} {s e u : State} (hpop : ReturnPopped e u) (hpush : ReturnPushed v s e) :
    u.r = s.r ∧ ∀ (n : Nat) (_ : n < 31), u.rs[n] = s.rs[n] := by
  obtain ⟨hpopR, hpopCells⟩ := hpop
  obtain ⟨-, hpushTop, hpushCells⟩ := hpush
  exact ⟨hpopR.trans hpushTop, fun n hn => (hpopCells n hn).trans (hpushCells n hn)⟩

theorem Field.same_trans {f : Field} {s e u : State} (hse : f.same s e) (heu : f.same e u) : f.same s u := by
  cases f
  case mem => exact fun x => (heu x).trans (hse x)
  all_goals exact Eq.trans heu hse

/-! ### The jump on a condition -/

/-- JZ in Slot1: the pop in either case, the jump on a zero datum (R122, D10, D11). -/
theorem exec_jz_slot1 {s : State} (h : s.slot = .execute .slot1) (a : PageOffset) :
    exec (.jz a) s = .next (endWord
      { popT s with p := if s.t.toNat % 2 ^ 24 = 0 then transferTarget s.p a else s.p }) := by
  have hzero : datum s.t = 0 ↔ s.t.toNat % 2 ^ 24 = 0 := by rw [← datum_toNat, ← BitVec.toNat_inj]; rfl
  rw [(exec_transfer_slot1 h a).2.1]
  simp only [hzero]
  split <;> rfl

/-- JNC in Slot1: the jump on a clear carry (R123). -/
theorem exec_jnc_slot1 {s : State} (h : s.slot = .execute .slot1) (a : PageOffset) :
    exec (.jnc a) s = .next (endWord { s with p := if s.t.toNat < 2 ^ 24 then transferTarget s.p a else s.p }) := by
  rw [(exec_transfer_slot1 h a).2.2.1]
  simp only [carry_iff, ← Nat.not_lt, ite_not]
  split <;> rfl

/-! ### The five instructions -/

/-- Settles O7: the target is `transferTarget_toNat`. -/
theorem jumpReplacesTheLowBitsOfP : Obligations.JumpReplacesTheLowBitsOfP := by
  intro s a h
  refine ⟨_, (exec_transfer_slot1 h a).1, transferTarget_toNat s.p a, rfl, fun f hf => ?_⟩
  cases f <;> simp_all [Field.same]

/-- Settles O8: RET is `returnFrom` in every state. -/
theorem retPopsReturnStackIntoP : Obligations.RetPopsReturnStackIntoP := by
  intro s
  refine ⟨_, (exec_register_alu s).1, rfl, returnPopped_of_rs rfl rfl, rfl, rfl, fun f hf => ?_⟩
  cases f <;> simp_all [Field.same]

/-- Settles O9, by the condition on the datum in `exec_jz_slot1`. -/
theorem jzPopsAndJumpsOnZeroDatum : Obligations.JzPopsAndJumpsOnZeroDatum := by
  intro s a h
  refine ⟨_, exec_jz_slot1 h a, rfl, dataPopped_of_ds rfl, fun hzero => ?_, fun hne => if_neg hne, rfl, fun f hf => ?_⟩
  · exact (congrArg BitVec.toNat (if_pos hzero)).trans (transferTarget_toNat s.p a)
  · cases f <;> simp_all [Field.same]

/-- Settles O10, by the condition on the carry in `exec_jnc_slot1`. -/
theorem jncJumpsOnClearCarry : Obligations.JncJumpsOnClearCarry := by
  intro s a h
  refine ⟨_, exec_jnc_slot1 h a, fun hclear => ?_, fun hset => if_neg (Nat.not_lt.mpr hset), rfl, fun f hf => ?_⟩
  · exact (congrArg BitVec.toNat (if_pos hclear)).trans (transferTarget_toNat s.p a)
  · cases f <;> simp_all [Field.same]

/-- Settles O11: P is pushed before it takes the target (`transferTarget_toNat`). -/
theorem callPushesPAndJumps : Obligations.CallPushesPAndJumps := by
  intro s a h
  refine ⟨_, (exec_transfer_slot1 h a).2.2.2, returnPushed_of_rs rfl rfl, transferTarget_toNat s.p a, rfl,
    fun f hf => ?_⟩
  cases f <;> simp_all [Field.same]

/-! ### RET after a CALL or an interrupt entry -/

/-- RET comes back from whatever pushed P and changed no more than P, the return stack, the slot counter and IEN. -/
theorem exec_ret_undoes_push {s e : State} (hpush : ReturnPushed s.p s e)
    (hkept : OnlyChanges [.r, .rs, .p, .slot, .ien] s e) :
    ∃ u, exec .ret e = .next u ∧ (∀ (n : Nat) (_ : n < 31), u.rs[n] = s.rs[n]) ∧
      u.slot = .fetch ∧ u.ien = true ∧ OnlyChanges [.rs, .slot, .ien, .draws] s u := by
  obtain ⟨u, hret, hp, hpop, hien, hslot, hretKept⟩ := retPopsReturnStackIntoP e
  obtain ⟨hr, hcells⟩ := hpop.undoes_push hpush
  refine ⟨u, hret, hcells, hslot, hien, fun f hf => ?_⟩
  by_cases hfr : f = .r
  · exact hfr ▸ hr
  by_cases hfp : f = .p
  · exact hfp ▸ hp.trans hpush.1
  exact Field.same_trans (hkept f (by simp_all)) (hretKept f (by simp_all))

/-- Interrupt entry pushes P (R214, D22). -/
theorem takeInterrupt_returnPushed (v : IntLines) (s : State) : ReturnPushed s.p s (takeInterrupt v s) :=
  returnPushed_of_rs rfl rfl

theorem takeInterrupt_onlyChanges (v : IntLines) (s : State) :
    OnlyChanges [.r, .rs, .p, .slot, .ien] s (takeInterrupt v s) := by
  intro f hf
  cases f <;> simp_all [Field.same]

/-- Settles O48: CALL (`callPushesPAndJumps`) and interrupt entry both push P and keep the rest, so `exec_ret_undoes_push`
comes back from either. -/
theorem retUndoesCallAndInterruptEntry : Obligations.RetUndoesCallAndInterruptEntry := by
  refine ⟨fun s a h => ?_, fun s v => exec_ret_undoes_push (takeInterrupt_returnPushed v s)
    (takeInterrupt_onlyChanges v s)⟩
  obtain ⟨e, hcall, hpush, -, -, hkept⟩ := callPushesPAndJumps s a h
  obtain ⟨u, hret, hback⟩ := exec_ret_undoes_push hpush fun f hf => hkept f (by simp_all)
  exact ⟨u, execAll_pair hcall hret, hback⟩

end Sys2Proof.Machine
end

section
/-! The memory access instructions (`41_memory_access.md`) where the access completes: loads at RAM and ROM, stores at
RAM. -/

namespace Sys2Proof.Machine

/-- The word at the bus address of a register, loaded as a datum: the address is the register modulo 2^24 (R62, D15). -/
theorem datum_loaded (m : Memory) (x : Reg) :
    datum (zext25 (Memory.read m (busAddr x).toNat)) = Memory.read m (x.toNat % 2 ^ 24) := by
  rw [datum_zext25, busAddr, datum_toNat]

/-! ### The loads -/

/-- Settles O12: the load is `load_readable`, and `afterLoad` steps nothing. -/
theorem ldPushesTheWordAtA : Obligations.LdPushesTheWordAtA := by
  intro s hk
  refine ⟨_, exec_load_next (by simp) rfl (load_readable hk), datum_loaded s.mem s.a, carry_zext25 _,
    dataPushed_of_ds rfl, rfl, fun f hf => ?_⟩
  cases f <;> simp_all [Field.same, afterLoad]

/-- Settles O13: the load is `load_readable`, the step of A is that of `afterLoad`. -/
theorem ldpPushesTheWordAtAAndIncrementsA : Obligations.LdpPushesTheWordAtAAndIncrementsA := by
  intro s hk
  refine ⟨_, exec_load_next (by simp) rfl (load_readable hk), datum_loaded s.mem s.a, carry_zext25 _,
    dataPushed_of_ds rfl, increment_toNat s.a, rfl, fun f hf => ?_⟩
  cases f <;> simp_all [Field.same, afterLoad]

/-- Settles O14: the load is `load_readable` at the address in P, the step of P is that of `afterLoad`. -/
theorem ldiPushesTheLiteralAndStepsP : Obligations.LdiPushesTheLiteralAndStepsP := by
  intro s hk
  refine ⟨_, exec_load_next (by simp) rfl (load_readable hk), datum_loaded s.mem s.p, carry_zext25 _,
    dataPushed_of_ds rfl, increment_toNat s.p, rfl, fun f hf => ?_⟩
  cases f <;> simp_all [Field.same, afterLoad]

/-! ### The stores -/

/-- Settles O15: the store is `store_ram`, whose write is read back at its own address only. -/
theorem stStoresTAtA : Obligations.StStoresTAtA := by
  intro s hram
  refine ⟨_, exec_store_next (by simp) (store_ram hram), Memory.read_write_same _ _ _,
    fun _ hy => Memory.read_write_other _ _ _ hy, rfl, dataPopped_of_ds rfl, rfl, fun f hf => ?_⟩
  cases f <;> simp_all [Field.same, afterStore]

/-- Settles O16: the store is `store_ram` at the old A, the step of A is that of `afterStore`. -/
theorem stpStoresTAtAAndIncrementsA : Obligations.StpStoresTAtAAndIncrementsA := by
  intro s hram
  refine ⟨_, exec_store_next (by simp) (store_ram hram), Memory.read_write_same _ _ _,
    fun _ hy => Memory.read_write_other _ _ _ hy, rfl, dataPopped_of_ds rfl, increment_toNat s.a, rfl, fun f hf => ?_⟩
  cases f <;> simp_all [Field.same, afterStore]

end Sys2Proof.Machine
end

section
/-! The ALU instructions (`42_alu.md`): each result as a number or bit by bit, and what each instruction changes. None of
them can stop, so each statement below runs its instruction (`rfl`) and cites the facts about its result. -/

namespace Sys2Proof.Machine

/-! ### What an ALU instruction changes -/

/-- An instruction with a result in T alone. -/
theorem onlyChanges_t (s : State) (x : Reg) : OnlyChanges [.t, .slot] s (advance { s with t := x }) := by
  intro f hf
  cases f <;> simp_all [Field.same]

/-- A step of a multiplication or division, which has results in T and A. -/
theorem onlyChanges_t_a (s : State) (x y : Reg) :
    OnlyChanges [.t, .a, .slot] s (advance { s with t := x, a := y }) := by
  intro f hf
  cases f <;> simp_all [Field.same]

/-- An instruction with two operands, which pops S. -/
theorem onlyChanges_t_ds (s : State) (x : Reg) :
    OnlyChanges [.t, .ds, .slot, .draws] s (advance { ddrop s with t := x }) := by
  intro f hf
  cases f <;> simp_all [Field.same]

/-- SHR, which has a result in T and sends a bit. -/
theorem onlyChanges_t_uart (s : State) (b : Bool) (x : Reg) :
    OnlyChanges [.t, .uartOut, .outputs, .slot] s (advance { sendUart b s with t := x }) := by
  intro f hf
  cases f <;> simp_all [Field.same]

/-! ### Results bit by bit: COM, XOR, AND -/

theorem getLsbD_withCarry_of_lt (c : Bool) (d : Word) {n : Nat} (h : n < 24) :
    (withCarry c d).getLsbD n = d.getLsbD n := by
  rw [getLsbD_withCarry, if_neg h.ne]

theorem getLsbD_comResult (t : Reg) {n : Nat} (h : n < 24) : (comResult t).getLsbD n = !t.getLsbD n := by
  rw [comResult, getLsbD_withCarry_of_lt _ _ h]
  simp [getElem_datum, h]

theorem getLsbD_xorResult (s t : Reg) {n : Nat} (h : n < 24) :
    (xorResult s t).getLsbD n = (s.getLsbD n != t.getLsbD n) := by
  rw [xorResult, getLsbD_withCarry_of_lt _ _ h]
  simp [getElem_datum, h]

theorem getLsbD_andResult (s t : Reg) {n : Nat} (h : n < 24) :
    (andResult s t).getLsbD n = (s.getLsbD n && t.getLsbD n) := by
  rw [andResult, getLsbD_withCarry_of_lt _ _ h]
  simp [getElem_datum, h]

/-- Settles O22: the bits are those of `getLsbD_comResult`. -/
theorem comComplementsTheDatum : Obligations.ComComplementsTheDatum := by
  intro s
  exact ⟨_, rfl, carry_comResult s.t, fun n hn => getLsbD_comResult s.t hn, rfl, onlyChanges_t s _⟩

/-- Settles O26: the bits are those of `getLsbD_xorResult` and `getLsbD_andResult`. -/
theorem xorAndCombineTheData : Obligations.XorAndCombineTheData := by
  intro s
  exact ⟨⟨_, rfl, carry_xorResult s.s s.t, fun n hn => getLsbD_xorResult s.s s.t hn, dataPopped_of_ds rfl, rfl,
      onlyChanges_t_ds s _⟩,
    ⟨_, rfl, carry_andResult s.s s.t, fun n hn => getLsbD_andResult s.s s.t hn, dataPopped_of_ds rfl, rfl,
      onlyChanges_t_ds s _⟩⟩

/-! ### Results as numbers: SHL, ADD, SHR -/

/-- Settles O23, by `shlResult_toNat`. -/
theorem shlDoublesTheDatum : Obligations.ShlDoublesTheDatum := by
  intro s
  refine ⟨_, rfl, ?_, carry_shlResult s.t, BitVec.getLsbD_concat_zero, rfl, onlyChanges_t s _⟩
  rw [← datum_toNat]
  exact shlResult_toNat s.t

/-- Settles O28, by the exact adder (`sum25_toNat`). -/
theorem addSumsTheDataWithCarryOut : Obligations.AddSumsTheDataWithCarryOut := by
  intro s
  refine ⟨_, rfl, ?_, dataPopped_of_ds rfl, rfl, onlyChanges_t_ds s _⟩
  rw [← datum_toNat, ← datum_toNat]
  exact sum25_toNat s.s s.t

/-- A bit of a datum as a number. -/
theorem toNat_getLsbD (x : Reg) {n : Nat} (h : n < 24) :
    (x.getLsbD n).toNat = (datum x).toNat / 2 ^ n % 2 := by
  rw [← Nat.toNat_testBit, ← BitVec.getLsbD, getLsbD_datum, decide_eq_true h, Bool.true_and]

theorem getLsbD_shrResult (pin : Bool) (t : Reg) {n : Nat} (h : n < 23) :
    (shrResult pin t).getLsbD n = t.getLsbD (n + 1) := by
  rw [shrResult, BitVec.getLsbD_cons, if_neg (by omega), BitVec.getLsbD_cons, if_neg h.ne, BitVec.getLsbD_extractLsb',
    decide_eq_true h, Bool.true_and, Nat.add_comm]

theorem sign_shrResult (pin : Bool) (t : Reg) : (shrResult pin t).getLsbD 23 = t.getLsbD 23 := by
  rw [shrResult, BitVec.getLsbD_cons, if_neg (by omega), BitVec.getLsbD_cons, if_pos rfl, sign]

/-- SHR halves the datum and copies its bit 23 (`42_alu.md` R162). -/
theorem datum_shrResult_toNat (pin : Bool) (t : Reg) :
    (datum (shrResult pin t)).toNat = (t.getLsbD 23).toNat * 2 ^ 23 + (datum t).toNat / 2 := by
  have hsign := Bool.toNat_le (t.getLsbD 23)
  have hbits : (datum t).toNat / 2 = t.toNat / 2 % 2 ^ 23 := by rw [datum_toNat]; omega
  rw [hbits, datum_toNat, shrResult, BitVec.toNat_cons', BitVec.toNat_cons', BitVec.extractLsb'_toNat]
  simp only [Nat.shiftLeft_eq, Nat.shiftRight_eq_div_pow, Nat.pow_one, sign]
  omega

/-- The halved datum is half the signed number, rounded down. -/
theorem datum_shrResult_toInt (pin : Bool) (t : Reg) :
    (datum (shrResult pin t)).toInt = (datum t).toInt / 2 := by
  have hbit := toNat_getLsbD t (n := 23) (by decide)
  have ht := datum_lt t
  have hhalf := datum_shrResult_toNat pin t
  rw [BitVec.toInt_eq_toNat_cond, BitVec.toInt_eq_toNat_cond]
  split <;> split <;> omega

/-- Settles O24: the datum is that of `datum_shrResult_toInt`, and the pin is the listed one where there is a list. -/
theorem shrHalvesAndExchangesSerialBits : Obligations.ShrHalvesAndExchangesSerialBits := by
  intro s
  refine ⟨_, rfl, datum_shrResult_toInt _ s.t, sign_shrResult _ s.t, fun n hn => getLsbD_shrResult _ s.t hn,
    fun pins rest hin => ?_, carry_shrResult _ s.t, rfl, rfl, rfl, onlyChanges_t_uart s _ _⟩
  obtain ⟨-, hpin, -⟩ := samples_of_script hin
  exact (carry_shrResult _ s.t).trans hpin

/-! ### The steps of a multiplication and of a division -/

/-- MUL adds S where A[0] is set, into 25 bits (R163). -/
theorem mulSum_toNat (a s t : Reg) :
    (mulSum a s t).toNat = (datum t).toNat + if a.getLsbD 0 then (datum s).toNat else 0 := by
  unfold mulSum
  split
  · rw [sum25_toNat, Nat.add_comm]
  · rw [reg_toNat, carry_zext25, datum_zext25]
    simp

theorem datum_mulT_toNat (a s t : Reg) : (datum (mulT a s t)).toNat = (mulSum a s t).toNat / 2 := by
  have hsum := (mulSum a s t).isLt
  rw [mulT, datum_withCarry, BitVec.extractLsb'_toNat, Nat.shiftRight_eq_div_pow]
  omega

theorem datum_mulA_toNat (mode : A24MulDiv) (a s t : Reg) :
    (datum (mulA mode a s t)).toNat = (mulSum a s t).toNat % 2 * 2 ^ 23 + (datum a).toNat / 2 := by
  have hbits : (datum a).toNat / 2 = a.toNat / 2 % 2 ^ 23 := by rw [datum_toNat]; omega
  rw [hbits, mulA, datum_withCarry, BitVec.toNat_cons', BitVec.extractLsb'_toNat, BitVec.getLsbD, Nat.toNat_testBit]
  simp only [Nat.shiftLeft_eq, Nat.shiftRight_eq_div_pow]
  omega

/-- Settles O25: the 49 bits of the sum and A are shifted right by one (`datum_mulT_toNat`, `datum_mulA_toNat`), bit 0 of
the sum going to A. -/
theorem mulAddsAndHalvesThePair : Obligations.MulAddsAndHalvesThePair := by
  intro s
  refine ⟨_, rfl, ?_, carry_mulT s.a s.s s.t, ?_, rfl, onlyChanges_t_a s _ _⟩
  · change (datum (mulT s.a s.s s.t)).toNat * 2 ^ 24 + (datum (mulA s.cfg.a24MulDiv s.a s.s s.t)).toNat = _
    rw [datum_mulT_toNat, datum_mulA_toNat, mulSum_toNat, State.s]
    split <;> omega
  · refine (carry_withCarry _ _).trans ?_
    cases s.cfg.a24MulDiv <;> rfl

/-- DIV takes the sum where the addition carries (R166). -/
theorem divSelect_toNat (s t : Reg) :
    (divSelect s t).toNat =
      if 2 ^ 24 ≤ (datum s).toNat + (datum t).toNat then (datum s).toNat + (datum t).toNat - 2 ^ 24
      else (datum t).toNat := by
  have hs := datum_lt s
  have ht := datum_lt t
  simp only [divSelect, carry_iff, sum25_toNat]
  split
  · rw [datum_toNat, sum25_toNat]
    omega
  · rfl

theorem divT_toNat (a s t : Reg) : (divT a s t).toNat = 2 * (divSelect s t).toNat + (a.getLsbD 23).toNat := by
  rw [divT, BitVec.toNat_concat, sign]
  omega

theorem datum_divA_toNat (mode : A24MulDiv) (a s t : Reg) :
    (datum (divA mode a s t)).toNat =
      2 * (a.toNat % 2 ^ 23) + if 2 ^ 24 ≤ (datum s).toNat + (datum t).toNat then 1 else 0 := by
  rw [divA, datum_withCarry, BitVec.toNat_concat, BitVec.extractLsb'_toNat, Nat.shiftRight_zero, ← sum25_toNat,
    Nat.mul_comm]
  simp only [← carry_iff]
  cases carry (sum25 s t) <;> rfl

/-- Settles O27, by what DIV selects (`divSelect_toNat`) and shifts (`divT_toNat`, `datum_divA_toNat`). -/
theorem divSubtractsAndDoublesThePair : Obligations.DivSubtractsAndDoublesThePair := by
  intro s
  refine ⟨_, (divSelect s.s s.t).toNat, if 2 ^ 24 ≤ (datum s.s).toNat + (datum s.t).toNat then 1 else 0, rfl, ?_,
    divT_toNat s.a s.s s.t, datum_divA_toNat _ s.a s.s s.t, ?_, rfl, onlyChanges_t_a s _ _⟩
  · rw [divSelect_toNat, State.s]
    split <;> exact ⟨rfl, rfl⟩
  · refine (carry_withCarry _ _).trans ?_
    cases s.cfg.a24MulDiv <;> rfl

end Sys2Proof.Machine
end

section
/-! The multiply and divide sequences (`42_alu.md` R169, R170): MUL and DIV as steps on the pair T:A, and their runs. -/

namespace Sys2Proof.Machine

/-! ### Runs -/

theorem execAll_append {is js : List Instr} {s v u : State} (hi : execAll is s = .next v)
    (hj : execAll js v = .next u) : execAll (is ++ js) s = .next u := by
  induction is generalizing s with
  | nil =>
    cases hi
    exact hj
  | cons i is ih =>
    obtain ⟨w, hw, hrest⟩ := andThen_next hi
    rw [List.cons_append, execAll, hw]
    exact ih hrest

/-- A repeated instruction: one execution, and the run of the rest. -/
theorem execAll_replicate_succ {i : Instr} {n : Nat} {s v u : State} (hi : exec i s = .next v)
    (hrun : execAll (List.replicate n i) v = .next u) : execAll (List.replicate (n + 1) i) s = .next u := by
  rw [List.replicate_succ, execAll, hi]
  exact hrun

theorem OnlyChanges.refl (fs : List Field) (s : State) : OnlyChanges fs s s := by
  intro f _
  cases f <;> simp [Field.same]

theorem OnlyChanges.trans {fs : List Field} {s v u : State} (hsv : OnlyChanges fs s v) (hvu : OnlyChanges fs v u) :
    OnlyChanges fs s u :=
  fun f hf => Field.same_trans (hsv f hf) (hvu f hf)

theorem OnlyChanges.mono {fs gs : List Field} {s u : State} (h : OnlyChanges fs s u) (hsub : fs ⊆ gs) :
    OnlyChanges gs s u :=
  fun f hf => h f fun hin => hf (hsub hin)

/-- The data of T and A as one number of 48 bits (`42_alu.md` R163, R166). -/
def pair (s : State) : Nat := (datum s.t).toNat * 2 ^ 24 + (datum s.a).toNat

/-! ### The multiplication (R169) -/

/-- MUL in the pair: S is added in the place of T if A is odd, and the pair is halved. -/
theorem exec_mul_pair (s : State) :
    ∃ u, exec .mul s = .next u ∧ pair u = (pair s + pair s % 2 * ((datum s.ds[0]).toNat * 2 ^ 24)) / 2 ∧
      carry u.t = carry s.t ∧ OnlyChanges [.t, .a, .slot] s u := by
  obtain ⟨u, hu, hpair, hcarry, -, -, hkept⟩ := mulAddsAndHalvesThePair s
  refine ⟨u, hu, ?_, hcarry, hkept⟩
  have hodd : pair s % 2 = (s.a.getLsbD 0).toNat := by
    rw [toNat_getLsbD s.a (by decide), pair]
    omega
  rw [hodd, pair, hpair, pair]
  cases s.a.getLsbD 0 <;> simp

/-- From the `n` steps after a step of the multiplication to the `n + 1` steps with it: `w` is the pair, `w'` the pair
after the step, `v` the pair at the end, and `k` the multiplicand in S. The step moves bits 1 to `n` of `w` down by one. -/
theorem mul_step_then {n k w w' v : Nat} (hn : n < 24) (hstep : w' = (w + w % 2 * (k * 2 ^ 24)) / 2)
    (hrest : 2 ^ n * v + w' % 2 ^ n = w' + w' % 2 ^ n * (k * 2 ^ 24)) :
    2 ^ (n + 1) * v + w % 2 ^ (n + 1) = w + w % 2 ^ (n + 1) * (k * 2 ^ 24) := by
  have hw' : w' = w / 2 + w % 2 * k * 2 ^ 23 := by
    rw [hstep, ← mul_assoc]
    omega
  have hdouble : 2 * w' + w % 2 = w + w % 2 * (k * 2 ^ 24) := by
    rw [hw', ← mul_assoc]
    omega
  have hbits : w' % 2 ^ n = w / 2 % 2 ^ n := by
    have hdvd : 2 ^ n ∣ w % 2 * k * 2 ^ 23 := (pow_dvd_pow 2 (Nat.le_of_lt_succ hn)).mul_left _
    rw [hw', Nat.add_mod, Nat.mod_eq_zero_of_dvd hdvd, Nat.add_zero, Nat.mod_mod]
  rw [hbits] at hrest
  rw [pow_succ', Nat.mod_mul]
  linear_combination 2 * hrest + hdouble

/-- The first `n` MULs use the low `n` bits of A: each set one adds S to T in its place, and all are shifted out. -/
theorem execAll_mul {n : Nat} (hn : n ≤ 24) (s : State) :
    ∃ u, execAll (List.replicate n .mul) s = .next u ∧
      2 ^ n * pair u + pair s % 2 ^ n = pair s + pair s % 2 ^ n * ((datum s.ds[0]).toNat * 2 ^ 24) ∧
      carry u.t = carry s.t ∧ OnlyChanges [.t, .a, .slot] s u := by
  induction n generalizing s with
  | zero => exact ⟨s, rfl, by simp [Nat.mod_one], rfl, OnlyChanges.refl _ s⟩
  | succ n ih =>
    obtain ⟨v, hv, hstep, hcarry, hkept⟩ := exec_mul_pair s
    obtain ⟨u, hu, hrest, hcarry', hkept'⟩ := ih (by omega) v
    have hds : v.ds = s.ds := hkept .ds (by simp)
    rw [hds] at hrest
    exact ⟨u, execAll_replicate_succ hv hu, mul_step_then hn hstep hrest, hcarry'.trans hcarry, hkept.trans hkept'⟩

/-- Settles O29, by `execAll_mul`: after 24 MULs all of A has been used. -/
theorem twentyFourMulsMultiply : Obligations.TwentyFourMulsMultiply := by
  intro s
  obtain ⟨u, hu, hpair, hcarry, hkept⟩ := execAll_mul (Nat.le_refl 24) s
  refine ⟨u, hu, ?_, hcarry, hkept⟩
  have hlow : pair s % 2 ^ 24 = (datum s.a).toNat := by
    have := datum_lt s.a
    unfold pair
    omega
  rw [hlow, pair, pair] at hpair
  have hproduct : (datum s.a).toNat * ((datum s.ds[0]).toNat * 2 ^ 24) =
      2 ^ 24 * ((datum s.ds[0]).toNat * (datum s.a).toNat) := by ring
  omega

/-! ### The division (R170) -/

/-- One step of the division by `d`, whose negation is in S, with T below 2d: the pair loses d in the place of T if T
holds it (`c`), is doubled, and takes `c` as its bit 0. T stays below 2d, so no bit is lost. -/
theorem exec_div_pair {s : State} {d : Nat} (hd : d ≤ 2 ^ 23) (hs : (datum s.ds[0]).toNat = 2 ^ 24 - d)
    (ht : (datum s.t).toNat < 2 * d) :
    ∃ u c, exec .div s = .next u ∧ pair u + 2 * (d * c * 2 ^ 24) = 2 * pair s + c ∧ (datum u.t).toNat < 2 * d ∧
      OnlyChanges [.t, .a, .slot] s u := by
  obtain ⟨u, x, c, hu, hxc, hut, hua, -, -, hkept⟩ := divSubtractsAndDoublesThePair s
  have hbit := toNat_getLsbD s.a (n := 23) (by decide)
  have ha := datum_toNat s.a
  have hx : x < d ∧ x + d * c = (datum s.t).toNat := by
    split at hxc <;> obtain ⟨hsel, rfl⟩ := hxc <;> omega
  have hdatum : (datum u.t).toNat = u.t.toNat := by rw [datum_toNat]; omega
  refine ⟨u, c, hu, ?_, ?_, hkept⟩
  · unfold pair
    rw [hdatum]
    omega
  · omega

/-- `n` DIVs find the bits `q` of a quotient, shifted into the pair from below, and take `q` times d off it. -/
theorem execAll_div {s : State} {d : Nat} (n : Nat) (hd : d ≤ 2 ^ 23) (hs : (datum s.ds[0]).toNat = 2 ^ 24 - d)
    (ht : (datum s.t).toNat < 2 * d) :
    ∃ u q, execAll (List.replicate n .div) s = .next u ∧ pair u + 2 * (d * q * 2 ^ 24) = 2 ^ n * pair s + q ∧
      (datum u.t).toNat < 2 * d ∧ OnlyChanges [.t, .a, .slot] s u := by
  induction n generalizing s with
  | zero => exact ⟨s, 0, rfl, by simp, ht, OnlyChanges.refl _ s⟩
  | succ n ih =>
    obtain ⟨v, c, hv, hstep, hvt, hkept⟩ := exec_div_pair hd hs ht
    have hds : v.ds = s.ds := hkept .ds (by simp)
    obtain ⟨u, q, hu, hrest, hut, hkept'⟩ := ih (hds ▸ hs) hvt
    refine ⟨u, q + 2 ^ n * c, execAll_replicate_succ hv hu, ?_, hut, hkept.trans hkept'⟩
    rw [pow_succ]
    linear_combination hrest + 2 ^ n * hstep

/-- After 25 steps on the pair `w`, whose T was below d, the 25 bits `q` fit into A: A is the quotient, and T twice the
remainder. -/
theorem quotient_of_pair {d w t a q : Nat} (hpair : t * 2 ^ 24 + a + 2 * (d * q * 2 ^ 24) = 2 ^ 25 * w + q)
    (ht : t < 2 * d) (ha : a < 2 ^ 24) (hw : w < d * 2 ^ 24) : a = w / d ∧ t = 2 * (w % d) := by
  have hd : 0 < d := by omega
  have hq : q < 2 ^ 24 := by
    by_contra hq
    obtain ⟨e, rfl⟩ := Nat.exists_eq_add_of_le (Nat.le_of_not_lt hq)
    have he : e ≤ d * e := Nat.le_mul_of_pos_left e hd
    rw [Nat.mul_add] at hpair
    omega
  obtain ⟨rfl, hsum⟩ : a = q ∧ t + 2 * (d * q) = 2 * w := by omega
  obtain ⟨hdiv, hmod⟩ := (Nat.div_mod_unique hd (a := w) (c := t / 2) (d := a)).mpr (by omega)
  omega

/-- 25 DIVs leave the quotient in A and twice the remainder in T. -/
theorem execAll_div_quotient {s : State} {d : Nat} (hd : d ≤ 2 ^ 23) (hs : (datum s.ds[0]).toNat = 2 ^ 24 - d)
    (ht : (datum s.t).toNat < d) :
    ∃ u, execAll (List.replicate 25 .div) s = .next u ∧ (datum u.a).toNat = pair s / d ∧
      (datum u.t).toNat = 2 * (pair s % d) ∧ OnlyChanges [.t, .a, .slot] s u := by
  obtain ⟨u, q, hu, hpair, hut, hkept⟩ := execAll_div 25 hd hs (by omega)
  have hw : pair s < d * 2 ^ 24 := by
    have := datum_lt s.a
    unfold pair
    omega
  obtain ⟨hquotient, hremainder⟩ := quotient_of_pair hpair hut (datum_lt u.a) hw
  exact ⟨u, hu, hquotient, hremainder, hkept⟩

/-- Where the datum of S is 0 nothing is ever subtracted: DIV only shifts A. -/
theorem execAll_div_zero {s : State} (n : Nat) (hs : datum s.ds[0] = 0) :
    ∃ u, execAll (List.replicate n .div) s = .next u ∧ (datum u.a).toNat = 2 ^ n * (datum s.a).toNat % 2 ^ 24 := by
  induction n generalizing s with
  | zero => exact ⟨s, rfl, by rw [pow_zero, one_mul, Nat.mod_eq_of_lt (datum_lt s.a)]⟩
  | succ n ih =>
    obtain ⟨v, x, c, hv, hxc, -, hva, -, -, hkept⟩ := divSubtractsAndDoublesThePair s
    have hds : v.ds = s.ds := hkept .ds (by simp)
    obtain ⟨u, hu, hua⟩ := ih (hds ▸ hs)
    refine ⟨u, execAll_replicate_succ hv hu, ?_⟩
    have hdouble : (datum v.a).toNat = 2 * (datum s.a).toNat % 2 ^ 24 := by
      have ht := datum_lt s.t
      have ha := datum_toNat s.a
      rw [hs, if_neg (by simpa using ht)] at hxc
      omega
    rw [hua, hdouble, Nat.mul_mod_mod, ← mul_assoc, ← pow_succ]

/-- The level of UART_IN is that of the cycle. -/
theorem sampleUartIn_eq {s u : State} (hinputs : u.inputs = s.inputs) (hcycle : u.cycle = s.cycle) :
    sampleUartIn u = sampleUartIn s := by
  unfold sampleUartIn
  rw [hinputs, hcycle]

/-- SHR of twice a remainder: the remainder, with bit 22 copied into bit 23. -/
theorem datum_shrResult_of_double {pin : Bool} {t : Reg} {r : Nat} (h : (datum t).toNat = 2 * r) :
    (datum (shrResult pin t)).toNat = r + if r < 2 ^ 22 then 0 else 2 ^ 23 := by
  have ht := datum_lt t
  rw [datum_shrResult_toNat, toNat_getLsbD t (by decide)]
  split <;> omega

/-- Settles O30: SHR halves the doubled remainder of `execAll_div_quotient` and sends its bit 0, which is clear; with 0
in S, `execAll_div_zero` has shifted every bit of A out. -/
theorem twentyFiveDivsAndShrDivide : Obligations.TwentyFiveDivsAndShrDivide := by
  refine ⟨fun s d _ hd hs ht => ?_, fun s hs => ?_⟩
  · obtain ⟨v, hv, hquotient, hremainder, hkept⟩ := execAll_div_quotient hd hs ht
    have hpin : sampleUartIn v = sampleUartIn s := sampleUartIn_eq (hkept .inputs (by simp)) (hkept .cycle (by simp))
    have heven : v.t.getLsbD 0 = false := by
      have hbit := toNat_getLsbD v.t (n := 0) (by decide)
      rw [hremainder] at hbit
      exact Bool.toNat_eq_zero.mp (by omega)
    refine ⟨_, execAll_append hv rfl, hquotient, datum_shrResult_of_double hremainder,
      (carry_shrResult _ v.t).trans hpin, heven, ?_⟩
    exact (hkept.mono (by simp)).trans ((onlyChanges_t_uart v _ _).mono (by simp))
  · obtain ⟨v, hv, ha⟩ := execAll_div_zero 25 hs
    refine ⟨_, execAll_append hv rfl, BitVec.eq_of_toNat_eq (ha.trans ?_)⟩
    change 2 ^ 25 * (datum s.a).toNat % 2 ^ 24 = 0
    omega

end Sys2Proof.Machine
end

section
/-! The register instructions (`43_register.md`): movements of whole 25-bit values between T, S, A, R and the stacks. None of
them can stop, so each statement below runs its instruction (`rfl`), cites the movements of the stacks, and composes what
the instruction's operations change. -/

namespace Sys2Proof.Machine

/-! ### What the operations change -/

/-- Two changes one after the other change what either does. -/
theorem OnlyChanges.comp {fs gs : List Field} {s v u : State} (hsv : OnlyChanges fs s v) (hvu : OnlyChanges gs v u) :
    OnlyChanges (fs ++ gs) s u :=
  (hsv.mono (List.subset_append_left fs gs)).trans (hvu.mono (List.subset_append_right fs gs))

theorem onlyChanges_dpush (v : Reg) (s : State) : OnlyChanges [.ds] s (dpush v s) := by
  intro f hf
  cases f <;> simp_all [Field.same]

theorem onlyChanges_ddrop (s : State) : OnlyChanges [.ds, .draws] s (ddrop s) := by
  intro f hf
  cases f <;> simp_all [Field.same]

theorem onlyChanges_rpush (v : Reg) (s : State) : OnlyChanges [.r, .rs] s (rpush v s) := by
  intro f hf
  cases f <;> simp_all [Field.same]

theorem onlyChanges_rdrop (s : State) : OnlyChanges [.r, .rs, .draws] s (rdrop s) := by
  intro f hf
  cases f <;> simp_all [Field.same]

theorem onlyChanges_advance (s : State) : OnlyChanges [.slot] s (advance s) := by
  intro f hf
  cases f <;> simp_all [Field.same]

theorem onlyChanges_endWord (s : State) : OnlyChanges [.slot] s (endWord s) := by
  intro f hf
  cases f <;> simp_all [Field.same]

/-- The old T pushed and T loaded: what LDA and OVER change. -/
theorem onlyChanges_push_load (s : State) (v x : Reg) :
    OnlyChanges [.t, .ds, .slot] s (advance { dpush v s with t := x }) :=
  ((onlyChanges_dpush v s).comp (onlyChanges_t (dpush v s) x)).mono (by decide)

/-! ### Values pushed on the data stack: POP, LDA, DUP, OVER -/

/-- Settles O31: POP is an `rpop` whose result is loaded into T, after the old T is pushed. -/
theorem popMovesRToT : Obligations.PopMovesRToT := by
  intro s
  have hkept := (onlyChanges_rdrop s).comp (onlyChanges_push_load (rdrop s) s.t s.r)
  exact ⟨_, rfl, rfl, dataPushed_of_ds rfl, returnPopped_of_rs rfl rfl, rfl, hkept.mono (by decide)⟩

/-- Settles O32. -/
theorem ldaPushesA : Obligations.LdaPushesA :=
  fun s => ⟨_, rfl, rfl, dataPushed_of_ds rfl, rfl, onlyChanges_push_load s s.t s.a⟩

/-- Settles O33: no operation of DUP writes T. -/
theorem dupPushesT : Obligations.DupPushesT :=
  fun s => ⟨_, rfl, dataPushed_of_ds rfl, rfl, (onlyChanges_dpush s.t s).comp (onlyChanges_advance (dpush s.t s))⟩

/-- Settles O34: T takes the S of before the push. -/
theorem overCopiesSOnTop : Obligations.OverCopiesSOnTop :=
  fun s => ⟨_, rfl, rfl, dataPushed_of_ds rfl, rfl, onlyChanges_push_load s s.t s.s⟩

/-! ### S popped into T: PUSH, STA, DROP -/

/-- Settles O35: PUSH is a DROP and a push of the old T on the return stack, which leaves the slot counter alone. -/
theorem pushMovesTToR : Obligations.PushMovesTToR := by
  intro s
  have hkept := (onlyChanges_t_ds s s.s).comp (onlyChanges_rpush s.t (advance (popT s)))
  exact ⟨_, rfl, rfl, dataPopped_of_ds rfl, returnPushed_of_rs rfl rfl, rfl, hkept.mono (by decide)⟩

/-- Settles O36: STA is a pop of the cells and a load of both T and A. -/
theorem staMovesTToA : Obligations.StaMovesTToA := by
  intro s
  have hkept := (onlyChanges_ddrop s).comp (onlyChanges_t_a (ddrop s) s.s s.t)
  exact ⟨_, rfl, rfl, rfl, dataPopped_of_ds rfl, rfl, hkept.mono (by decide)⟩

/-- Settles O38: the pop into T is that of the two-operand ALU instructions, with S itself as the result. -/
theorem dropPopsT : Obligations.DropPopsT :=
  fun s => ⟨_, rfl, rfl, dataPopped_of_ds rfl, rfl, onlyChanges_t_ds s s.s⟩

/-! ### The end of the word: NOP -/

/-- Settles O37. -/
theorem nopEndsTheWord : Obligations.NopEndsTheWord :=
  fun s => ⟨_, rfl, rfl, onlyChanges_endWord s⟩

end Sys2Proof.Machine
end

section
/-! Where a step stops and where it cannot (`60_exceptions.md` R210). -/

namespace Sys2Proof.Machine

/-! ### A fault names its cause -/

theorem endCycle_refused_iff {o : Result} {r : Refusal} : endCycle o = .refused r ↔ o = .refused r := by
  cases o <;> simp [endCycle]

theorem fetchCycle_fault {s : State} {f : Fault} (h : fetchCycle s = .fault f) :
    (∃ b, kindAt s (busAddr s.p) = .unpopulated b) ∧ f = .unpopulated (busAddr s.p) := by
  unfold fetchCycle at h
  split at h
  next => cases h
  next e he =>
    cases h
    exact busRead_error he

theorem fetchCycle_not_refused {s : State} {r : Refusal} : fetchCycle s ≠ .refused r := by
  unfold fetchCycle
  split <;> simp

theorem step_not_refused (s : State) (r : Refusal) : step s ≠ .refused r := by
  unfold step
  split
  next => simp
  next =>
    split
    next =>
      rw [ne_eq, endCycle_refused_iff, slot0Cycle]
      split
      · simp
      · exact fetchCycle_not_refused
    next => exact mt endCycle_refused_iff.mp exec_not_refused

/-- The two kinds of cycle that can stop: a fetch, and the execution of a slot. -/
theorem step_fault {s : State} {f : Fault} (h : step s = .fault f) :
    sampleClr s = false ∧
      ((s.slot = .fetch ∧ interruptDue s = false ∧ fetchCycle s = .fault f) ∨
        ∃ k, s.slot = .execute k ∧ exec (decodeSlot k s.i) s = .fault f) := by
  cases hc : sampleClr s with
  | true => simp [step, hc] at h
  | false =>
    refine ⟨rfl, ?_⟩
    cases hs : s.slot with
    | fetch =>
      rw [step_fetch hc hs, endCycle_fault_iff] at h
      cases hd : interruptDue s with
      | true => simp [slot0Cycle, hd] at h
      | false => exact .inl ⟨rfl, rfl, slot0Cycle_fetches hd ▸ h⟩
    | execute k =>
      rw [step_execute hc hs, endCycle_fault_iff] at h
      exact .inr ⟨k, rfl, h⟩

/-- Settles O58: a fetch stops at the bus (`fetchCycle_fault`), an instruction as `exec_fault` says, with the code of the
slot it stands in (`code_decodeCode`). -/
theorem stepStopsOnlyWithoutADefinedBehaviour : Obligations.StepStopsOnlyWithoutADefinedBehaviour := by
  refine fun s => ⟨step_not_refused s, fun f h => ?_⟩
  obtain ⟨hc, ⟨hs, hd, hfetch⟩ | ⟨k, hk, hexec⟩⟩ := step_fault h
  · exact ⟨hc, .inl ⟨hs, hd, fetchCycle_fault hfetch⟩⟩
  · refine ⟨hc, .inr ⟨k, hk, ?_⟩⟩
    rcases exec_fault hexec with ⟨hi, hf⟩ | ⟨hi, hslot, hf⟩ | hdata
    · exact .inl ⟨hi, by rw [hf, decodeSlot, code_decodeCode]⟩
    · exact .inr (.inl ⟨hi, fun hk1 => hslot (hk1 ▸ hk), hf⟩)
    · exact .inr (.inr hdata)

/-! ### What goes on -/

/-- Settles O59: a step that neither refuses nor stops goes on, and each cause of a stop in O58 is ruled out: RAM answers
at every address, and the instruction is implemented and, if a transfer, in Slot1. -/
theorem wellPlacedInstructionsNeverStop : Obligations.WellPlacedInstructionsNeverStop := by
  intro s hram hplaced
  obtain ⟨hrefused, hfault⟩ := stepStopsOnlyWithoutADefinedBehaviour s
  cases hstep : step s with
  | next u => exact ⟨u, rfl⟩
  | refused r => exact absurd hstep (hrefused r)
  | fault f =>
    obtain ⟨-, ⟨-, -, ⟨b, hb⟩, -⟩ | ⟨k, hk, hcause⟩⟩ := hfault f hstep
    · simp [hram _] at hb
    · have hwf := hplaced k hk
      rw [Instr.wellFormedAt, Bool.and_eq_true] at hwf
      obtain ⟨himpl, hplace⟩ := hwf
      rcases hcause with ⟨hi, -⟩ | ⟨hi, hk1, -⟩ | ⟨x, -, ⟨⟨b, hb⟩, -⟩ | ⟨hb, -⟩⟩
      · simp [hi] at himpl
      · simp [hi, hk1] at hplace
      · simp [hram x] at hb
      · simp [hram x] at hb

/-! ### How soon the fetch state comes -/

theorem NoReset.mono {m n : Nat} {s : State} (h : NoReset n s) (hmn : m ≤ n) : NoReset m s :=
  fun pins hp => h pins (List.take_subset_take_left _ hmn hp)

theorem length_untilWordEnd_le (is : List Instr) : (untilWordEnd is).length ≤ is.length := by
  induction is with
  | nil => exact Nat.le_refl 0
  | cons i is ih =>
    unfold untilWordEnd
    split
    · simp
    · simpa using ih

/-- From any slot on at most four instructions of a word stand, and from the fetch state on none (`30_encoding.md` R91). -/
theorem exists_standsFrom (w : Word) (q : Sequencer) : ∃ is, is.length ≤ 4 ∧ StandsFrom w q is := by
  have from1 := standsFrom_slot1 w
  have ⟨_, from2⟩ := from1
  have ⟨_, from3⟩ := from2
  have ⟨_, from4⟩ := from3
  cases q with
  | fetch => exact ⟨[], by simp, rfl⟩
  | execute k =>
    cases k with
    | slot1 => exact ⟨_, by simp, from1⟩
    | slot2 => exact ⟨_, by simp, from2⟩
    | slot3 => exact ⟨_, by simp, from3⟩
    | slot4 => exact ⟨_, by simp, from4⟩

theorem stepTimes_not_refused (n : Nat) (s : State) (r : Refusal) : stepTimes n s ≠ .refused r := by
  induction n generalizing s with
  | zero => simp [stepTimes]
  | succ n ih =>
    rw [stepTimes]
    cases hstep : step s with
    | next v => exact ih v
    | fault f => simp [andThen]
    | refused r' => exact absurd hstep (step_not_refused s r')

/-- Settles O44: the rest of the word has at most four instructions, its cycles run them up to its end
(`stepTimes_untilWordEnd`), and then the machine is in the fetch state (`execCycles_untilWordEnd`), unless it stopped. -/
theorem fetchStateWithinFourCycles : Obligations.FetchStateWithinFourCycles := by
  intro s hclr
  obtain ⟨is, hlen, hin⟩ := exists_standsFrom s.i s.slot
  refine ⟨(untilWordEnd is).length, (length_untilWordEnd_le is).trans hlen, ?_⟩
  have hruns := stepTimes_untilWordEnd hin (hclr.mono hlen)
  cases hrun : stepTimes (untilWordEnd is).length s with
  | next u => exact .inr ⟨u, rfl, (execCycles_untilWordEnd hin (hruns ▸ hrun)).1⟩
  | fault f => exact .inl ⟨f, rfl⟩
  | refused r => exact absurd hrun (stepTimes_not_refused _ s r)

end Sys2Proof.Machine
end

section
/-! Interrupts (`60_exceptions.md` R212 to R218): the entry, what the lines have no influence on, and the entry right after
a RET. -/

namespace Sys2Proof.Machine

/-! ### Interrupt entry -/

theorem interruptDue_iff (s : State) : interruptDue s = true ↔ s.ien = true ∧ sampleInt s ≠ 0 := by
  simp [interruptDue]

/-- The cycle in the fetch state with an interrupt due is the entry (R214). -/
theorem step_interrupt {s : State} (hc : sampleClr s = false) (hs : s.slot = .fetch) (hd : interruptDue s = true) :
    step s = .next (tick (takeInterrupt (sampleInt s) s)) := by
  rw [step_fetch hc hs, slot0Cycle, if_pos hd, endCycle]

/-- Settles O46: the cycle is `takeInterrupt` (`step_interrupt`), whose vector is as a number the five lines, not all of
them clear. -/
theorem interruptEntryPushesPAndVectors : Obligations.InterruptEntryPushesPAndVectors := by
  intro s hc hs hien hlines
  have hp : (tick (takeInterrupt (sampleInt s) s)).p.toNat = (sampleInt s).toNat := vectorTarget_toNat _
  have hpos : (sampleInt s).toNat ≠ 0 := fun h0 => hlines (BitVec.eq_of_toNat_eq h0)
  have hlt := (sampleInt s).isLt
  refine ⟨_, step_interrupt hc hs ((interruptDue_iff s).mpr ⟨hien, hlines⟩), returnPushed_of_rs rfl rfl, hp, by omega,
    by omega, rfl, rfl, rfl, rfl, fun f hf => ?_⟩
  cases f <;> simp_all [Field.same]

/-! ### Other pin levels -/

/-- The state with another script of pin levels. -/
def setInputs (l : List Pins) (s : State) : State := { s with inputs := l }

@[simp] theorem setInputs_a (l : List Pins) (s : State) : (setInputs l s).a = s.a := rfl
@[simp] theorem setInputs_p (l : List Pins) (s : State) : (setInputs l s).p = s.p := rfl
@[simp] theorem setInputs_i (l : List Pins) (s : State) : (setInputs l s).i = s.i := rfl
@[simp] theorem kindAt_setInputs (l : List Pins) (s : State) (x : Addr) : kindAt (setInputs l s) x = kindAt s x := rfl

/-- The levels of a cycle are gone when it is over. -/
theorem tick_setInputs {l : List Pins} {s : State} (h : l.tail = s.inputs.tail) : tick (setInputs l s) = tick s := by
  simp [tick, setInputs, h]

theorem endCycle_setInputs {l : List Pins} {o : Result} (h : ∀ u, o = .next u → l.tail = u.inputs.tail) :
    endCycle (andThen o fun u => .next (setInputs l u)) = endCycle o := by
  cases o with
  | next u => exact congrArg Host.Outcome.next (tick_setInputs (h u rfl))
  | fault f => rfl
  | refused r => rfl

/-- The bus does not look at the pins: a load with other levels leaves the same state but for the levels. -/
theorem load_setInputs (l : List Pins) (x : Addr) (s : State) :
    load x (setInputs l s) = (load x s).map (setInputs l) := by
  unfold load busRead
  rw [kindAt_setInputs]
  cases kindAt s x <;> rfl

theorem store_setInputs (l : List Pins) (x : Addr) (s : State) :
    store x (setInputs l s) = (store x s).map (setInputs l) := by
  unfold store busWrite
  rw [kindAt_setInputs]
  rcases kindAt s x with _ | (_ | _) | _ | (_ | _) <;> rfl

theorem fetchCycle_setInputs (l : List Pins) (s : State) :
    fetchCycle (setInputs l s) = andThen (fetchCycle s) fun u => .next (setInputs l u) := by
  unfold fetchCycle busRead
  rw [setInputs_p, kindAt_setInputs]
  cases kindAt s (busAddr s.p) <;> rfl

theorem exec_load_setInputs {l : List Pins} {s : State} {i : Instr} {x : Addr} (hi : i ∈ [Instr.ld, .ldp, .ldi])
    (hx : dataAddress i s = some x) :
    exec i (setInputs l s) = andThen (exec i s) fun u => .next (setInputs l u) := by
  have hx' : dataAddress i (setInputs l s) = some x := hx
  rw [exec_load hi hx', exec_load hi hx, load_setInputs]
  cases load x s <;> rfl

theorem exec_store_setInputs {l : List Pins} {s : State} {i : Instr} (hi : i ∈ [Instr.st, .stp]) :
    exec i (setInputs l s) = andThen (exec i s) fun u => .next (setInputs l u) := by
  rw [exec_store hi, exec_store hi, setInputs_a, store_setInputs]
  cases store (busAddr s.a) s <;> rfl

/-- A transfer looks at no pin if its effect does not. -/
theorem inSlot1_setInputs {l : List Pins} {s : State} {effect : State → State}
    (h : effect (setInputs l s) = setInputs l (effect s)) :
    inSlot1 effect (setInputs l s) = andThen (inSlot1 effect s) fun u => .next (setInputs l u) := by
  have hs : (setInputs l s).slot = s.slot := rfl
  unfold inSlot1
  rw [h, hs]
  split <;> rfl

/-- An instruction looks at no pin but UART_IN (`00_scope.md` R8). -/
theorem exec_setInputs {l : List Pins} {s : State} (huart : sampleUartIn (setInputs l s) = sampleUartIn s) (i : Instr) :
    exec i (setInputs l s) = andThen (exec i s) fun u => .next (setInputs l u) := by
  cases i
  case ld | ldp | ldi => exact exec_load_setInputs (by simp) rfl
  case st | stp => exact exec_store_setInputs (by simp)
  case jump | call =>
    simp only [exec, execJump, execCall]
    exact inSlot1_setInputs rfl
  case jz | jnc =>
    simp only [exec, execJz, execJnc]
    refine inSlot1_setInputs ?_
    rw [apply_ite (setInputs l)]
    rfl
  case shr =>
    simp only [exec_register_alu, huart]
    rfl
  all_goals rfl

/-- In an execute slot, and with servicing disabled, a cycle looks at no pin but `clr` and UART_IN (R213, R216). -/
theorem step_setInputs {l : List Pins} {s : State} (htail : l.tail = s.inputs.tail)
    (hclr : sampleClr (setInputs l s) = sampleClr s) (huart : sampleUartIn (setInputs l s) = sampleUartIn s)
    (hdue : s.slot = .fetch → interruptDue s = false ∧ interruptDue (setInputs l s) = false) :
    step (setInputs l s) = step s := by
  cases hc : sampleClr s with
  | true =>
    have hclear : tick (clear (setInputs l s)) = tick (clear s) := tick_setInputs (s := clear s) htail
    simp [step, hclr, hc, hclear]
  | false =>
    cases hs : s.slot with
    | fetch =>
      obtain ⟨hd, hd'⟩ := hdue hs
      rw [step_fetch hc hs, step_fetch (hclr.trans hc) hs, slot0Cycle_fetches hd, slot0Cycle_fetches hd',
        fetchCycle_setInputs]
      refine endCycle_setInputs fun u hu => ?_
      obtain ⟨d, -, hkeeps⟩ := fetchCycle_keeps hu
      rw [htail, hkeeps]
    | execute k =>
      rw [step_execute hc hs, step_execute (hclr.trans hc) hs]
      rw [setInputs_i, exec_setInputs huart]
      exact endCycle_setInputs fun u hu => by rw [htail, (exec_keeps hu).inputs]

theorem interruptDue_disabled {s : State} (h : s.ien = false) : interruptDue s = false := by
  simp [interruptDue, h]

/-- Settles O47: with IEN clear no interrupt is due, and two scripts that differ in the lines of this cycle agree on
all that `step_setInputs` asks for. -/
theorem linesMakeNoDifferenceWhileDisabledOrInAWord : Obligations.LinesMakeNoDifferenceWhileDisabledOrInAWord := by
  refine ⟨fun s hc hs hien => ?_, fun s pins rest lines hin hquiet => ?_⟩
  · rw [step_fetch hc hs, slot0Cycle_fetches (interruptDue_disabled hien)]
  · obtain ⟨-, huart, hclr⟩ := samples_of_script hin
    refine step_setInputs (l := { pins with int := lines } :: rest) (by rw [hin]; rfl) hclr.symm huart.symm fun hs => ?_
    have hien : s.ien = false := hquiet.resolve_right fun hne => hne hs
    exact ⟨interruptDue_disabled hien, interruptDue_disabled hien⟩

/-! ### An interrupt right after a RET -/

/-- Settles O49: RET sets IEN and fetches next with the return address in P, so the second cycle is the entry of O46. -/
theorem pendingInterruptIsTakenRightAfterRet : Obligations.PendingInterruptIsTakenRightAfterRet := by
  intro s k pins0 pins1 rest hin hclr0 hclr1 hk hret hline
  have hin1 : (tick (returnFrom s)).inputs = pins1 :: rest := by simp [hin]
  obtain ⟨-, -, hc0⟩ := samples_of_script hin
  obtain ⟨hint1, -, hc1⟩ := samples_of_script hin1
  have hstep : step s = .next (tick (returnFrom s)) := by
    rw [step_execute (hc0.trans hclr0) hk, hret, (exec_register_alu s).1, endCycle]
  have hsample : sampleInt (tick (returnFrom s)) = if s.cfg.intActiveHigh then pins1.int else ~~~pins1.int := by
    rw [sampleInt, hint1, tick_cfg, returnFrom_cfg]
  obtain ⟨u, hentry, ⟨hr, hrs, -⟩, hp, -, -, hien, hslot, hinputs, -, hkept⟩ :=
    interruptEntryPushesPAndVectors (tick (returnFrom s)) (hc1.trans hclr1) rfl rfl (hsample ▸ hline)
  refine ⟨u, ?_, hr, hrs, hsample ▸ hp, hien, hslot, hkept .i (by decide), ?_⟩
  · simp [stepTimes, hstep, hentry, andThen]
  · rw [hinputs, hin1, List.tail_cons]

end Sys2Proof.Machine
end

section
/-! Reset by `clr` (`70_reset_and_hazards.md` R240). -/

namespace Sys2Proof.Machine

/-- With `clr` active the cycle is the reset, whatever the slot counter says (R240). -/
theorem step_clr {s : State} (hc : sampleClr s = true) : step s = .next (tick (clear s)) := by
  rw [step, if_pos hc]

/-- The reset leaves memory, the parameters and the output events (D31; log 29). -/
theorem tick_clear_onlyChanges (s : State) :
    OnlyChanges [.t, .ds, .r, .rs, .a, .p, .i, .slot, .ien, .uartOut, .inputs, .cycle, .draws] s (tick (clear s)) := by
  intro f hf
  cases f
  case mem => exact fun _ => rfl
  case cfg | outputs => rfl
  all_goals simp at hf

/-- Settles O52: `clr` is active by either form of the hypothesis, so the cycle is the reset (`step_clr`), each cell of a
stack being a cell of a replicated 0. -/
theorem clrResetsInAnyCycle : Obligations.ClrResetsInAnyCycle := by
  intro s hclr
  have hc : sampleClr s = true := by
    rcases hclr with hc | ⟨pins, rest, hin, hpins⟩
    · exact hc
    · obtain ⟨-, -, hc⟩ := samples_of_script hin
      exact hc.trans hpins
  exact ⟨_, step_clr hc, rfl, fun n hn => Vector.getElem_replicate hn, rfl, fun n hn => Vector.getElem_replicate hn,
    rfl, rfl, rfl, rfl, rfl, rfl, rfl, tick_clear_onlyChanges s⟩

end Sys2Proof.Machine
end
